-- ==== Sys2Proof/Word.lean ====
section
/-! DEFINITION. The bit vectors of the DES core, by the names of `spec/00_scope.md`: a register word (R10), a
64-bit block or key (R9), a 48-bit round key (R9), one byte (R13). All values are unsigned (R11). -/

namespace Sys2Proof

/-- One byte of a byte string (R13). -/
abbrev Byte := BitVec 8

/-- A register word of the port, and a half block (R9, R10). -/
abbrev Word := BitVec 32

/-- A byte offset from CORE_BASE (R10, R80). -/
abbrev Offset := BitVec 16

/-- A block or a key, byte 0 most significant (R9, R13). -/
abbrev Block := BitVec 64

/-- A round key, byte 0 most significant (R9, R62). -/
abbrev RoundKey := BitVec 48

/-- A bank of sixteen round keys (R60, R61). -/
abbrev KeyBank := Vector RoundKey 16

end Sys2Proof
end

