-- ==== Sys2Proof/Machine/Des.lean ====
section
/-! DEFINITION. The DES functions of `spec/40_des_functions.md` (R140 to R170): pure and total, none reads or writes state.
The tables are the spec's own, which are those of FIPS PUB 46-3 (R2). -/

namespace Sys2Proof.Machine

/-! ## Primitives -/

/-- Permute of R141: output DES bit `j` is input DES bit `T[j]`; DES bit `n` of an `m`-bit vector is `v[m − n]` (R12). -/
def permute {m : Nat} (n : Nat) (t : List Nat) (v : BitVec m) : BitVec n :=
  t.foldl (fun out j => (out <<< 1) ||| (BitVec.ofBool (v.getLsbD (m - j))).setWidth n) 0

/-- ROTL28 of R142, for a shift of 1 or 2. -/
def rotl28 (x : BitVec 28) (s : Nat) : BitVec 28 := (x <<< s) ||| (x >>> (28 - s))

/-! ## Block permutations -/

/-- IP_T (R143). -/
def ipTable : List Nat :=
  [58, 50, 42, 34, 26, 18, 10, 2] ++
  [60, 52, 44, 36, 28, 20, 12, 4] ++
  [62, 54, 46, 38, 30, 22, 14, 6] ++
  [64, 56, 48, 40, 32, 24, 16, 8] ++
  [57, 49, 41, 33, 25, 17, 9, 1] ++
  [59, 51, 43, 35, 27, 19, 11, 3] ++
  [61, 53, 45, 37, 29, 21, 13, 5] ++
  [63, 55, 47, 39, 31, 23, 15, 7]

/-- IPINV_T (R144). -/
def ipInvTable : List Nat :=
  [40, 8, 48, 16, 56, 24, 64, 32] ++
  [39, 7, 47, 15, 55, 23, 63, 31] ++
  [38, 6, 46, 14, 54, 22, 62, 30] ++
  [37, 5, 45, 13, 53, 21, 61, 29] ++
  [36, 4, 44, 12, 52, 20, 60, 28] ++
  [35, 3, 43, 11, 51, 19, 59, 27] ++
  [34, 2, 42, 10, 50, 18, 58, 26] ++
  [33, 1, 41, 9, 49, 17, 57, 25]

/-- IP, the initial permutation (R143). -/
def ip (x : Block) : Block := permute 64 ipTable x

/-- IP⁻¹, the inverse initial permutation (R144). -/
def ipInv (x : Block) : Block := permute 64 ipInvTable x

/-! ## Round function -/

/-- E_T (R146). -/
def eTable : List Nat :=
  [32, 1, 2, 3, 4, 5] ++
  [4, 5, 6, 7, 8, 9] ++
  [8, 9, 10, 11, 12, 13] ++
  [12, 13, 14, 15, 16, 17] ++
  [16, 17, 18, 19, 20, 21] ++
  [20, 21, 22, 23, 24, 25] ++
  [24, 25, 26, 27, 28, 29] ++
  [28, 29, 30, 31, 32, 1]

/-- EXP, the expansion permutation (R146). -/
def expand (r : Word) : RoundKey := permute 48 eTable r

/-- S1, rows 0 to 3 (R148). -/
def s1 : List (List Nat) := [
  [14, 4, 13, 1, 2, 15, 11, 8, 3, 10, 6, 12, 5, 9, 0, 7],
  [0, 15, 7, 4, 14, 2, 13, 1, 10, 6, 12, 11, 9, 5, 3, 8],
  [4, 1, 14, 8, 13, 6, 2, 11, 15, 12, 9, 7, 3, 10, 5, 0],
  [15, 12, 8, 2, 4, 9, 1, 7, 5, 11, 3, 14, 10, 0, 6, 13]]

/-- S2, rows 0 to 3 (R149). -/
def s2 : List (List Nat) := [
  [15, 1, 8, 14, 6, 11, 3, 4, 9, 7, 2, 13, 12, 0, 5, 10],
  [3, 13, 4, 7, 15, 2, 8, 14, 12, 0, 1, 10, 6, 9, 11, 5],
  [0, 14, 7, 11, 10, 4, 13, 1, 5, 8, 12, 6, 9, 3, 2, 15],
  [13, 8, 10, 1, 3, 15, 4, 2, 11, 6, 7, 12, 0, 5, 14, 9]]

/-- S3, rows 0 to 3 (R150). -/
def s3 : List (List Nat) := [
  [10, 0, 9, 14, 6, 3, 15, 5, 1, 13, 12, 7, 11, 4, 2, 8],
  [13, 7, 0, 9, 3, 4, 6, 10, 2, 8, 5, 14, 12, 11, 15, 1],
  [13, 6, 4, 9, 8, 15, 3, 0, 11, 1, 2, 12, 5, 10, 14, 7],
  [1, 10, 13, 0, 6, 9, 8, 7, 4, 15, 14, 3, 11, 5, 2, 12]]

/-- S4, rows 0 to 3 (R151). -/
def s4 : List (List Nat) := [
  [7, 13, 14, 3, 0, 6, 9, 10, 1, 2, 8, 5, 11, 12, 4, 15],
  [13, 8, 11, 5, 6, 15, 0, 3, 4, 7, 2, 12, 1, 10, 14, 9],
  [10, 6, 9, 0, 12, 11, 7, 13, 15, 1, 3, 14, 5, 2, 8, 4],
  [3, 15, 0, 6, 10, 1, 13, 8, 9, 4, 5, 11, 12, 7, 2, 14]]

/-- S5, rows 0 to 3 (R152). -/
def s5 : List (List Nat) := [
  [2, 12, 4, 1, 7, 10, 11, 6, 8, 5, 3, 15, 13, 0, 14, 9],
  [14, 11, 2, 12, 4, 7, 13, 1, 5, 0, 15, 10, 3, 9, 8, 6],
  [4, 2, 1, 11, 10, 13, 7, 8, 15, 9, 12, 5, 6, 3, 0, 14],
  [11, 8, 12, 7, 1, 14, 2, 13, 6, 15, 0, 9, 10, 4, 5, 3]]

/-- S6, rows 0 to 3 (R153). -/
def s6 : List (List Nat) := [
  [12, 1, 10, 15, 9, 2, 6, 8, 0, 13, 3, 4, 14, 7, 5, 11],
  [10, 15, 4, 2, 7, 12, 9, 5, 6, 1, 13, 14, 0, 11, 3, 8],
  [9, 14, 15, 5, 2, 8, 12, 3, 7, 0, 4, 10, 1, 13, 11, 6],
  [4, 3, 2, 12, 9, 5, 15, 10, 11, 14, 1, 7, 6, 0, 8, 13]]

/-- S7, rows 0 to 3 (R154). -/
def s7 : List (List Nat) := [
  [4, 11, 2, 14, 15, 0, 8, 13, 3, 12, 9, 7, 5, 10, 6, 1],
  [13, 0, 11, 7, 4, 9, 1, 10, 14, 3, 5, 12, 2, 15, 8, 6],
  [1, 4, 11, 13, 12, 3, 7, 14, 10, 15, 6, 8, 0, 5, 9, 2],
  [6, 11, 13, 8, 1, 4, 10, 7, 9, 5, 0, 15, 14, 2, 3, 12]]

/-- S8, rows 0 to 3 (R155). -/
def s8 : List (List Nat) := [
  [13, 2, 8, 4, 6, 15, 11, 1, 10, 9, 3, 14, 5, 0, 12, 7],
  [1, 15, 13, 8, 10, 3, 7, 4, 12, 5, 6, 11, 0, 14, 9, 2],
  [7, 11, 4, 1, 9, 12, 14, 2, 0, 6, 10, 13, 15, 3, 5, 8],
  [2, 1, 14, 7, 4, 10, 8, 13, 15, 12, 9, 0, 3, 5, 6, 11]]

/-- The lookup of R147 in one S-box: the row is the two outer bits, the column the four inner bits. -/
def sLookup (t : List (List Nat)) (b : BitVec 6) : BitVec 4 :=
  let row := 2 * (b.extractLsb' 5 1).toNat + (b.extractLsb' 0 1).toNat
  let col := (b.extractLsb' 1 4).toNat
  BitVec.ofNat 4 ((t.getD row []).getD col 0)

/-- Group `B_i` of a 48-bit value, i = 1..8 (R147). -/
def sGroup (x : RoundKey) (i : Nat) : BitVec 6 := x.extractLsb' (42 - 6 * (i - 1)) 6

/-- SBOX, the S-box layer, S1's output most significant (R157). -/
def sLayer (x : RoundKey) : Word :=
  sLookup s1 (sGroup x 1) ++ sLookup s2 (sGroup x 2) ++ sLookup s3 (sGroup x 3) ++ sLookup s4 (sGroup x 4) ++
  sLookup s5 (sGroup x 5) ++ sLookup s6 (sGroup x 6) ++ sLookup s7 (sGroup x 7) ++ sLookup s8 (sGroup x 8)

/-- P_T (R158). -/
def pTable : List Nat :=
  [16, 7, 20, 21, 29, 12, 28, 17] ++
  [1, 15, 23, 26, 5, 18, 31, 10] ++
  [2, 8, 24, 14, 32, 27, 3, 9] ++
  [19, 13, 30, 6, 22, 11, 4, 25]

/-- PBOX, the permutation after the S-boxes (R158). -/
def pBox (y : Word) : Word := permute 32 pTable y

/-- F, the Feistel round function (R159); neither IP nor IP⁻¹ is part of it (`spec/90_conflicts.md` C1). -/
def roundFunction (r : Word) (k : RoundKey) : Word := pBox (sLayer (expand r ^^^ k))

/-! ## Key normalisation and key schedule -/

/-- PC1_T (R160). -/
def pc1Table : List Nat :=
  [57, 49, 41, 33, 25, 17, 9] ++
  [1, 58, 50, 42, 34, 26, 18] ++
  [10, 2, 59, 51, 43, 35, 27] ++
  [19, 11, 3, 60, 52, 44, 36] ++
  [63, 55, 47, 39, 31, 23, 15] ++
  [7, 62, 54, 46, 38, 30, 22] ++
  [14, 6, 61, 53, 45, 37, 29] ++
  [21, 13, 5, 28, 20, 12, 4]

/-- PC2_T (R161). -/
def pc2Table : List Nat :=
  [14, 17, 11, 24, 1, 5] ++
  [3, 28, 15, 6, 21, 10] ++
  [23, 19, 12, 4, 26, 8] ++
  [16, 7, 27, 20, 13, 2] ++
  [41, 52, 31, 37, 47, 55] ++
  [30, 40, 51, 45, 33, 48] ++
  [44, 49, 39, 56, 34, 53] ++
  [46, 42, 50, 36, 29, 32]

/-- PC1, 64 to 56 bits (R160). -/
def pc1 (k : Block) : BitVec 56 := permute 56 pc1Table k

/-- PC2, 56 to 48 bits (R161). -/
def pc2 (cd : BitVec 56) : RoundKey := permute 48 pc2Table cd

/-- SHIFT[1..16] (R163). -/
def shifts : List Nat := [1, 1, 2, 2, 2, 2, 2, 2, 1, 2, 2, 2, 2, 2, 2, 1]

/-- The loop of R162 over the shifts still to come, from the halves C and D. -/
def scheduleFrom : List Nat → BitVec 28 → BitVec 28 → List RoundKey
  | [], _, _ => []
  | s :: rest, c, d => pc2 (rotl28 c s ++ rotl28 d s) :: scheduleFrom rest (rotl28 c s) (rotl28 d s)

/-- The loop gives one round key for each shift. -/
theorem scheduleFrom_length (l : List Nat) (c d : BitVec 28) : (scheduleFrom l c d).length = l.length := by
  induction l generalizing c d with
  | nil => rfl
  | cons s rest ih => simp [scheduleFrom, ih]

/-- The half C₀ of a normalised key (R162). -/
def halfC (kn : Block) : BitVec 28 := (pc1 kn).extractLsb' 28 28

/-- The half D₀ of a normalised key (R162). -/
def halfD (kn : Block) : BitVec 28 := (pc1 kn).extractLsb' 0 28

/-- KeySchedule: the sixteen round keys of a normalised key, K_r at index r − 1 (R162). -/
def keySchedule (kn : Block) : KeyBank :=
  ⟨(scheduleFrom shifts (halfC kn) (halfD kn)).toArray, by simp [scheduleFrom_length, shifts]⟩

/-- Par: the high seven bits of a byte, and the low bit that makes the number of 1 bits odd (R164). -/
def par (b : Byte) : Byte :=
  let ones := (List.range 7).countP (fun i => b.getLsbD (i + 1))
  b.extractLsb' 1 7 ++ (if ones % 2 = 0 then 1#1 else 0#1)

/-- The vector of a byte string, byte 0 most significant (R13). -/
def vectorOfBytes (n : Nat) (bs : List Byte) : BitVec n :=
  bs.foldl (fun out b => (out <<< 8) ||| b.setWidth n) 0

/-- KeyNorm(k, 8): the parity of every byte regenerated (R164). -/
def keyNorm8 (k : List Byte) : Block := vectorOfBytes 64 (k.map par)

/-- KeyNorm(k, 7): the 56 bits spread into the high seven bits of eight bytes, in order (R164). -/
def keyNorm7 (k : List Byte) : Block :=
  let s := vectorOfBytes 56 k
  vectorOfBytes 64 ((List.range 8).map (fun i => par (s.extractLsb' (49 - 7 * i) 7 ++ 0#1)))

/-- KeyNorm(k, n) for n ∈ (7, 8), the key sizes of R112 (R164). -/
def keyNorm (k : List Byte) (n : Nat) : Block := if n = 7 then keyNorm7 k else keyNorm8 k

/-! ## Feistel scaffold and the block transform -/

/-- One round of the scaffold: (L, R) becomes (R, L ⊕ F(R, k)) (R166). -/
def feistelRound (lr : Word × Word) (k : RoundKey) : Word × Word := (lr.2, lr.1 ^^^ roundFunction lr.2 k)

/-- The pair of halves after all rounds (R166). -/
def feistelRounds (ks : List RoundKey) (lr : Word × Word) : Word × Word := ks.foldl feistelRound lr

/-- Feistel: the rounds from the two halves of a block, then the final swap (R166). -/
def feistel (ks : List RoundKey) (x : Block) : Block :=
  let lr := feistelRounds ks (x.extractLsb' 32 32, x.extractLsb' 0 32)
  lr.2 ++ lr.1

/-- The direction of the block transform (R167). -/
inductive Direction where
  | enc
  | dec
  deriving DecidableEq, Repr

/-- The order in which a direction uses the round keys (R167). -/
def keyOrder (rk : KeyBank) : Direction → List RoundKey
  | .enc => rk.toList
  | .dec => rk.toList.reverse

/-- DesBlock: IP, the scaffold, IP⁻¹ (R167). -/
def desBlock (x : Block) (rk : KeyBank) (dir : Direction) : Block := ipInv (feistel (keyOrder rk dir) (ip x))

end Sys2Proof.Machine
end

