-- ==== Sys2Proof/Syntax.lean ====
section
/-! DEFINITION. The commands, one constructor per row of `spec/opcode_table.json` (`spec/30_encoding.md` R111). Every
command word carries the fields KLEN and NRK, which the commands that do not read them ignore (R112), so every
constructor carries both and no bit of a word is lost. -/

namespace Sys2Proof

/-- A decoded command: `Command(op, klen, nrk)` of R114. `klen` is a number of bytes, `nrk` a number of round keys. -/
inductive Instr where
  /-- OP 0x01, load a key and build the active key schedule (R190). -/
  | keyInit (klen nrk : Nat)
  /-- OP 0x02, compute round keys into the expansion bank (R193). -/
  | keyExpand (klen nrk : Nat)
  /-- OP 0x03, encrypt DIN into DOUT (R210). -/
  | encBlock (klen nrk : Nat)
  /-- OP 0x04, decrypt DIN into DOUT (R212). -/
  | decBlock (klen nrk : Nat)
  /-- OP 0x05, one evaluation of the round function (R214). -/
  | roundF (klen nrk : Nat)
  /-- OP 0x06, encrypt a range of the block buffer in place (R216). -/
  | encBuf (klen nrk : Nat)
  /-- OP 0x07, decrypt a range of the block buffer in place (R219). -/
  | decBuf (klen nrk : Nat)
  /-- OP 0x08, clear all key material (R196). -/
  | zeroize (klen nrk : Nat)
  deriving DecidableEq, Repr

namespace Instr

/-- The field KLEN of the command's word (R110). -/
def klen : Instr → Nat
  | keyInit k _ | keyExpand k _ | encBlock k _ | decBlock k _ | roundF k _ | encBuf k _ | decBuf k _ | zeroize k _ => k

/-- The field NRK of the command's word (R110). -/
def nrk : Instr → Nat
  | keyInit _ n | keyExpand _ n | encBlock _ n | decBlock _ n | roundF _ n | encBuf _ n | decBuf _ n | zeroize _ n => n

end Instr

end Sys2Proof
end

