-- ==== Sys2Proof/WellFormed.lean ====
section
/-! DEFINITION. Which commands a word can hold: KLEN in 4 bits and NRK in 5 (`spec/30_encoding.md` R110). Whether KLEN
or NRK is in the range a command accepts is no part of it (R116): the command itself checks that (R243). -/

namespace Sys2Proof

namespace Instr

/-- KLEN fits bits [11:8] (R110). -/
abbrev KlenFits (i : Instr) : Prop := i.klen < 16

/-- NRK fits bits [20:16] (R110). -/
abbrev NrkFits (i : Instr) : Prop := i.nrk < 32

/-- The command is the decoding of some word (R110, R116). -/
abbrev WellFormed (i : Instr) : Prop := i.KlenFits ∧ i.NrkFits

end Instr

end Sys2Proof
end

