-- ==== Sys2Proof/Decode.lean ====
section
/-! DEFINITION. The decoder and the encoder of the 32-bit command word (`spec/30_encoding.md` R110 to R116). A word that is
no command is rejected by name; the engine completes it with InvalidArgument (R114, R241). -/

namespace Sys2Proof

/-- Why a word is no command (R114, R115). -/
inductive Illegal where
  /-- OP is 0x00 or 0x09 to 0xFF: INFO 1. -/
  | reservedOp
  /-- OP is defined and a bit of [15:12] or [31:21] is set: INFO 2. -/
  | reservedBits
  deriving DecidableEq, Repr

/-- What decoding a word answers. -/
inductive Decoded where
  | command (i : Instr)
  | illegal (why : Illegal)
  deriving DecidableEq, Repr

/-- OP, bits [7:0] (R110). -/
def opField (w : Word) : BitVec 8 := w.extractLsb' 0 8

/-- KLEN, bits [11:8] (R110). -/
def klenField (w : Word) : BitVec 4 := w.extractLsb' 8 4

/-- Bits [15:12], reserved (R110). -/
def reservedLow (w : Word) : BitVec 4 := w.extractLsb' 12 4

/-- NRK, bits [20:16] (R110). -/
def nrkField (w : Word) : BitVec 5 := w.extractLsb' 16 5

/-- Bits [31:21], reserved (R110). -/
def reservedHigh (w : Word) : BitVec 11 := w.extractLsb' 21 11

/-- The command that an operation code names (R111). -/
def commandOf (op klen nrk : Nat) : Option Instr :=
  match op with
  | 0x01 => some (.keyInit klen nrk)
  | 0x02 => some (.keyExpand klen nrk)
  | 0x03 => some (.encBlock klen nrk)
  | 0x04 => some (.decBlock klen nrk)
  | 0x05 => some (.roundF klen nrk)
  | 0x06 => some (.encBuf klen nrk)
  | 0x07 => some (.decBuf klen nrk)
  | 0x08 => some (.zeroize klen nrk)
  | _ => none

/-- Decode of R114: the operation code first, then the reserved bits. -/
def decode (w : Word) : Decoded :=
  match commandOf (opField w).toNat (klenField w).toNat (nrkField w).toNat with
  | none => .illegal .reservedOp
  | some i => if reservedHigh w ≠ 0 ∨ reservedLow w ≠ 0 then .illegal .reservedBits else .command i

/-- The operation code of a command (R111). -/
def Instr.opcode : Instr → Nat
  | .keyInit _ _ => 0x01
  | .keyExpand _ _ => 0x02
  | .encBlock _ _ => 0x03
  | .decBlock _ _ => 0x04
  | .roundF _ _ => 0x05
  | .encBuf _ _ => 0x06
  | .decBuf _ _ => 0x07
  | .zeroize _ _ => 0x08

/-- The word with these fields and every reserved bit 0, laid out as R110 does. -/
def layout (op : BitVec 8) (klen : BitVec 4) (nrk : BitVec 5) : Word := 0#11 ++ nrk ++ 0#4 ++ klen ++ op

/-- The word of a well-formed command (R110, R111, R117). -/
def encode (i : Instr) : Word := layout (BitVec.ofNat 8 i.opcode) (BitVec.ofNat 4 i.klen) (BitVec.ofNat 5 i.nrk)

/-- The word whose bits are the low `nbits` of `w`, bit 0 the least significant, the bits above them 0. A command is
one 32-bit write (R110), so the table's numbering is the word's own. -/
def tableWord (nbits w : Nat) : Word := BitVec.ofNat 32 (w % 2 ^ nbits)

/-- The command the decoder reads from a row's bits, none where it rejects them. -/
def decodeTableWord (nbits w : Nat) : Option Instr :=
  match decode (tableWord nbits w) with
  | .command i => some i
  | .illegal _ => none

end Sys2Proof
end

