-- ==== Sys2Proof/Config.lean ====
section
/-! DEFINITION. What an implementation fixes (`spec/00_scope.md` R9, `spec/93_implementation_defined.md` U6 to U8)
and the free value of a read in the BUSY window (R281, U2). The latencies LAT_* are no field: completion is an
engine step with no bound on when it is taken (R285), so the schedule of `State` stands for them. -/

namespace Sys2Proof

/-- The parameters of one core in one system. A state carries them, no step changes them, and a claim about every
state is a claim about every value of them. -/
structure Config where
  /-- BUF_BLOCKS, the number of 8-byte blocks of the block buffer, 1 to 4096 (R9, R36). -/
  bufBlocks : Nat
  /-- CORE_BASE, the bus address of register offset 0 (R9, R89). -/
  coreBase : Nat
  /-- The number of bus masters on the slave port (R80). -/
  masters : Nat
  deriving DecidableEq, Repr

namespace Config

/-- The parameter values the spec allows: BUF_BLOCKS in its range (R9), one master (R80). -/
def Valid (c : Config) : Prop := 1 ≤ c.bufBlocks ∧ c.bufBlocks ≤ 4096 ∧ c.masters = 1

/-- The suggested buffer of 128 blocks (R9), one master (R80), and CORE_BASE, which the spec leaves OPEN, at 0.
DESIGN CHOICE (log entry 1): only the state after reset is built from these values. -/
def suggested : Config := { bufBlocks := 128, coreBase := 0, masters := 1 }

/-- The bus address of a register offset (R80, R89). -/
def busAddress (c : Config) (off : Offset) : Nat := c.coreBase + off.toNat

/-- The register offset a bus address reaches, if it lies in the core's 64 KiB window (R10, R80). -/
def offsetOf (c : Config) (addr : Nat) : Option Offset :=
  if c.coreBase ≤ addr ∧ addr < c.coreBase + 0x10000 then some (BitVec.ofNat 16 (addr - c.coreBase)) else none

/-- The value of the n-th read of a register that the command in flight may write: any 32 bits, drawn
independently at each read (R281, U2). A free value, log entry 2: nothing about it can be proved. -/
opaque freeWord : Nat → Word

end Config

end Sys2Proof
end

