-- ==== Sys2Proof/Machine/State.lean ====
section
/-! DEFINITION. The state of the machine as plain data. `DesCore` is the record of `spec/10_state.md` R30, component by
component. `State` puts beside it the two agents of `spec/00_scope.md` R17 and the reset line: the host's pending accesses
and the values they returned, and a schedule that says which agent moves next. -/

namespace Sys2Proof.Machine

/-- Why the machine stops: a program did what the spec forbids a program to do. -/
inductive Fault where
  /-- Raised by a host read of a BUF word not written since reset, and by ENC_BUF and DEC_BUF over a block with such
  a word: "a fault of the program, not a value" (R75, R88, U4). Safe: every run that makes the read stops. -/
  | unwrittenBuffer
  /-- Raised by a host write to a BUF block inside the range of the buffer command in flight (R282, U3). Safe: the
  spec leaves the block's content open, and the run stops instead. -/
  | bufferWriteHazard
  deriving DecidableEq, Repr

/-- Why the model gives no next state. -/
inductive Refusal where
  /-- Raised by an arm of `exec` that has no meaning yet; no arm is left. Safe. -/
  | notModelled (mnemonic : String)
  /-- Raised by every step of a system with more than one master on the port, which the spec does not model
  (R80, U8). Safe. -/
  | secondMaster
  deriving DecidableEq, Repr

/-- Memory in one canonical form: addresses strictly rising, no entry that equals what an unlisted address reads as. -/
abbrev Memory := List Host.Cell

/-- What an address that is not listed reads as: no value, since the content of BUF after reset is unspecified and
reading it is a fault (R75, U4). -/
def Memory.unlisted : Option Byte := none

/-- The canonical form. As an unlisted address has no value, every listed byte differs from it. -/
abbrev Memory.wf (m : Memory) : Prop := m.Pairwise (fun a b => a.1 < b.1)

/-- LATCH, the operands of the command in flight (R70). -/
structure Latch where
  cmd : Word
  key : Block
  din : Block
  hin : Word
  rkin : RoundKey
  base : BitVec 16
  cnt : BitVec 16
  deriving DecidableEq, Repr

/-- The complete state of the core, the record of R30. BUF is held as the bytes at their port offsets, and BUFW with
it: a word's bit "written since reset" is set exactly when its bytes are listed. -/
structure DesCore where
  ctrlIe : Bool
  busy : Bool
  done : Bool
  init : Bool
  ovr : Bool
  aerr : Bool
  errCode : BitVec 4
  errInfo : BitVec 4
  cmdLast : Word
  key : Block
  knorm : Block
  din : Block
  dout : Block
  hin : Word
  rkin : RoundKey
  hout : Word
  bufBase : BitVec 16
  bufCnt : BitVec 16
  rk : KeyBank
  xrk : KeyBank
  xrkn : BitVec 5
  buf : Memory
  latch : Latch
  deriving DecidableEq, Repr

/-- One operation of a host script (R80, R118). -/
inductive HostOp where
  /-- `rd`: HostRead of an offset. -/
  | rd (off : Offset)
  /-- `wr`: HostWrite of a value at an offset. -/
  | wr (off : Offset) (v : Word)
  /-- `poll`: read the offset again until the value under the mask is the one given. -/
  | poll (off : Offset) (mask v : Word)
  deriving DecidableEq, Repr

/-- Who moves next: one of the two agents (R17), or the reset line (R270). -/
inductive Turn where
  | host
  | engine
  | rstAssert
  | rstRelease
  deriving DecidableEq, Repr

/-- A value the port returned to the host: the offset read and the 32 bits (R80). -/
structure PortRead where
  off : Offset
  value : Word
  deriving DecidableEq, Repr

/-- The machine: the core, the parameters it was built with, and the outside world as plain data. -/
structure State where
  /-- the parameters; no step changes them (R9) -/
  cfg : Config
  /-- the core (R30) -/
  des : DesCore
  /-- the `rst` input is asserted (R270) -/
  rst : Bool
  /-- the host's accesses still to come, in the order it issues them (R80, R118) -/
  script : List HostOp
  /-- who moves next; when it is empty a command in flight completes before the host goes on (log entry 3) -/
  schedule : List Turn
  /-- what the port returned, newest first (R80) -/
  reads : List PortRead
  /-- how many reads have drawn a free value (R281) -/
  draws : Nat
  deriving DecidableEq, Repr

/-- LATCH after reset (R70). -/
def Latch.reset : Latch := { cmd := 0, key := 0, din := 0, hin := 0, rkin := 0, base := 0, cnt := 0 }

/-- A bank after reset: sixteen entries of 0 (R60, R61). -/
def zeroBank : KeyBank := Vector.replicate 16 0

/-- The core after reset (R75): every component 0, and no BUF word written. -/
def DesCore.reset : DesCore where
  ctrlIe := false
  busy := false
  done := false
  init := false
  ovr := false
  aerr := false
  errCode := 0
  errInfo := 0
  cmdLast := 0
  key := 0
  knorm := 0
  din := 0
  dout := 0
  hin := 0
  rkin := 0
  hout := 0
  bufBase := 0
  bufCnt := 0
  rk := zeroBank
  xrk := zeroBank
  xrkn := 0
  buf := []
  latch := Latch.reset

/-- The machine right after reset, for given parameters: the core reset (R75), the line released, the host with
nothing to do. -/
def State.resetWith (c : Config) : State where
  cfg := c
  des := DesCore.reset
  rst := false
  script := []
  schedule := []
  reads := []
  draws := 0

/-- The machine right after reset (R75, R271), with the suggested parameters (log entry 1). -/
def State.reset : State := State.resetWith Config.suggested

end Sys2Proof.Machine
end

