-- ==== Sys2Proof/Machine/Flags.lean ====
section
/-! DEFINITION. The status bits: the words STATUS and ERRCODE (`spec/10_state.md` R38, R39), the error codes
(`spec/60_exceptions.md` R241), what acceptance and completion do to the status, the W1C bits, and irq (R250). -/

namespace Sys2Proof.Machine

/-- The errors a command can complete with (R241). -/
inductive CmdError where
  | reservedOp
  | reservedBits
  | keySize
  | roundCount
  | bufferRange
  | notInitialized
  deriving DecidableEq, Repr

/-- ERRCODE.CODE of an error: 1 InvalidArgument, 2 NotInitialized (R241). -/
def CmdError.code : CmdError → BitVec 4
  | .reservedOp | .reservedBits | .keySize | .roundCount | .bufferRange => 1
  | .notInitialized => 2

/-- ERRCODE.INFO of an error (R241). -/
def CmdError.info : CmdError → BitVec 4
  | .reservedOp => 1
  | .reservedBits => 2
  | .keySize => 3
  | .roundCount => 4
  | .bufferRange => 5
  | .notInitialized => 0

/-- The error a word completes with when it is no command (R114, R241). -/
def CmdError.ofIllegal : Illegal → CmdError
  | .reservedOp => .reservedOp
  | .reservedBits => .reservedBits

namespace DesCore

/-- STATUS.ERR: `ERR_CODE ≠ 0` (R38). -/
def err (d : DesCore) : Bool := d.errCode != 0

/-- STATUS as a host read returns it: AERR, OVR, ERR, INIT, DONE, BUSY from bit 5 down (R38). -/
def statusWord (d : DesCore) : Word :=
  0#26 ++ BitVec.ofBool d.aerr ++ BitVec.ofBool d.ovr ++ BitVec.ofBool d.err ++ BitVec.ofBool d.init ++
    BitVec.ofBool d.done ++ BitVec.ofBool d.busy

/-- ERRCODE as a host read returns it: INFO in [11:8], CODE in [3:0] (R39). -/
def errWord (d : DesCore) : Word := 0#20 ++ d.errInfo ++ 0#4 ++ d.errCode

/-- A host write to STATUS: DONE, OVR and AERR are cleared where the written bit is 1 (R38). -/
def writeStatus (d : DesCore) (v : Word) : DesCore :=
  { d with
    done := d.done && !v.getLsbD 1
    ovr := d.ovr && !v.getLsbD 4
    aerr := d.aerr && !v.getLsbD 5 }

/-- The end of a successful completion: BUSY, DONE and no error (R39, R72). -/
def finish (d : DesCore) : DesCore := { d with busy := false, done := true, errCode := 0, errInfo := 0 }

/-- The end of a completion with an error, which writes nothing but the status (R242). -/
def failWith (e : CmdError) (d : DesCore) : DesCore :=
  { d with busy := false, done := true, errCode := e.code, errInfo := e.info }

/-- A bad host access sets AERR (R83). -/
def badAccess (d : DesCore) : DesCore := { d with aerr := true }

/-- A command write while BUSY = 1 is dropped and sets OVR (R113). -/
def dropCommand (d : DesCore) : DesCore := { d with ovr := true }

/-- The irq output, a level: `CTRL_IE ∧ DONE` (R73, R250). -/
def irq (d : DesCore) : Bool := d.ctrlIe && d.done

end DesCore

end Sys2Proof.Machine
end

