-- ==== Sys2Proof/Machine/Operands.lean ====
section
/-! DEFINITION. Where operands come from: the latch of `spec/10_state.md` R70 and its capture at acceptance (R71), the
bytes of a latched key (R190), the range of a buffer command (R217), and the register map of `spec/10_state.md` section 2:
the registers by name, their offsets, and the halves of the quantities they show (R81). -/

namespace Sys2Proof.Machine

/-! ## The latch -/

/-- The operands captured when word `w` is accepted (R71). -/
def DesCore.capture (d : DesCore) (w : Word) : Latch :=
  { cmd := w, key := d.key, din := d.din, hin := d.hin, rkin := d.rkin, base := d.bufBase, cnt := d.bufCnt }

/-- Acceptance of word `w`: CMD_LAST and LATCH take it, BUSY rises, DONE and the error fall; nothing else (R71). -/
def DesCore.accept (d : DesCore) (w : Word) : DesCore :=
  { d with
    cmdLast := w
    latch := d.capture w
    busy := true
    done := false
    errCode := 0
    errInfo := 0 }

/-- Key bytes 0 to n − 1 of a 64-bit key (R41, R190). -/
def keyBytes (n : Nat) (key : Block) : List Byte := (List.range n).map (fun i => key.extractLsb' (56 - 8 * i) 8)

/-- The normalised key of the latched key and a key length (R190, R193). -/
def Latch.normalisedKey (l : Latch) (klen : Nat) : Block := keyNorm (keyBytes klen l.key) klen

/-- The key sizes the core supports (R9, R112). -/
def keySizeOk (klen : Nat) : Bool := klen == 7 || klen == 8

/-- How many round keys NRK asks for: 0 means 16 (R112, R193). -/
def roundCount (nrk : Nat) : Nat := if nrk = 0 then 16 else nrk

/-- The first `c` keys of a schedule, the entries after them 0 (R193). -/
def firstKeys (c : Nat) (ks : KeyBank) : KeyBank :=
  ⟨(ks.toList.zipIdx.map (fun p => if p.2 < c then p.1 else 0)).toArray, by simp⟩

/-- Block `j` lies in the latched range (R281, R282). -/
def Latch.inRange (l : Latch) (j : Nat) : Bool := l.base.toNat ≤ j && j < l.base.toNat + l.cnt.toNat

/-- The range check: `b + c ≤ BUF_BLOCKS`, the sum unbounded (R217). -/
def Latch.rangeOk (l : Latch) (bufBlocks : Nat) : Bool := l.base.toNat + l.cnt.toNat ≤ bufBlocks

/-! ## The register map -/

/-- The registers of `spec/10_state.md` section 2. -/
inductive Reg where
  | id | cap0 | cap1 | cap2 | ctrl | status | errcode | cmd
  | key0 | key1 | knorm0 | knorm1 | din0 | din1 | dout0 | dout1
  | hin | rkin0 | rkin1 | hout | bufBase | bufCnt | xrkn
  | rkHi (i : Fin 16) | rkLo (i : Fin 16)
  | xrkHi (i : Fin 16) | xrkLo (i : Fin 16)
  | bufHi (j : Nat) | bufLo (j : Nat)
  deriving DecidableEq, Repr

/-- The offset of a register, as a number (section 2 of `spec/10_state.md`). -/
def Reg.offset : Reg → Nat
  | .id => 0x000
  | .cap0 => 0x004
  | .cap1 => 0x008
  | .cap2 => 0x00C
  | .ctrl => 0x010
  | .status => 0x014
  | .errcode => 0x018
  | .cmd => 0x01C
  | .key0 => 0x020
  | .key1 => 0x024
  | .knorm0 => 0x028
  | .knorm1 => 0x02C
  | .din0 => 0x030
  | .din1 => 0x034
  | .dout0 => 0x038
  | .dout1 => 0x03C
  | .hin => 0x040
  | .rkin0 => 0x044
  | .rkin1 => 0x048
  | .hout => 0x04C
  | .bufBase => 0x050
  | .bufCnt => 0x054
  | .xrkn => 0x058
  | .rkHi i => 0x100 + 8 * i.val
  | .rkLo i => 0x104 + 8 * i.val
  | .xrkHi i => 0x180 + 8 * i.val
  | .xrkLo i => 0x184 + 8 * i.val
  | .bufHi j => 0x8000 + 8 * j
  | .bufLo j => 0x8004 + 8 * j

/-- The registers below the banks, offsets 0x000 to 0x058. -/
def Reg.ofLowOffset (o : Nat) : Option Reg :=
  match o with
  | 0x000 => some .id
  | 0x004 => some .cap0
  | 0x008 => some .cap1
  | 0x00C => some .cap2
  | 0x010 => some .ctrl
  | 0x014 => some .status
  | 0x018 => some .errcode
  | 0x01C => some .cmd
  | 0x020 => some .key0
  | 0x024 => some .key1
  | 0x028 => some .knorm0
  | 0x02C => some .knorm1
  | 0x030 => some .din0
  | 0x034 => some .din1
  | 0x038 => some .dout0
  | 0x03C => some .dout1
  | 0x040 => some .hin
  | 0x044 => some .rkin0
  | 0x048 => some .rkin1
  | 0x04C => some .hout
  | 0x050 => some .bufBase
  | 0x054 => some .bufCnt
  | 0x058 => some .xrkn
  | _ => none

/-- The register an offset names; none is a bad access: misaligned, unmapped, or a BUF block that does not exist
(R83, R89). -/
def Reg.ofOffset (bufBlocks : Nat) (off : Offset) : Option Reg :=
  let o := off.toNat
  if o % 4 ≠ 0 then none
  else if 0x8000 ≤ o then
    let j := (o - 0x8000) / 8
    if j < bufBlocks then some (if o % 8 = 0 then .bufHi j else .bufLo j) else none
  else if 0x200 ≤ o then none
  else if 0x180 ≤ o then
    let i := Fin.ofNat 16 ((o - 0x180) / 8)
    some (if o % 8 = 0 then .xrkHi i else .xrkLo i)
  else if 0x100 ≤ o then
    let i := Fin.ofNat 16 ((o - 0x100) / 8)
    some (if o % 8 = 0 then .rkHi i else .rkLo i)
  else Reg.ofLowOffset o

/-- The registers of one build: a BUF register exists for a block below BUF_BLOCKS (section 2, R85). -/
def Reg.Exists (bufBlocks : Nat) : Reg → Prop
  | .bufHi j | .bufLo j => j < bufBlocks
  | _ => True

/-! ## Halves of the quantities the registers show (R81) -/

/-- Bits [63:32] of a 64-bit quantity, its word at the lower offset. -/
def hi64 (x : Block) : Word := x.extractLsb' 32 32

/-- Bits [31:0] of a 64-bit quantity, its word at the higher offset. -/
def lo64 (x : Block) : Word := x.extractLsb' 0 32

/-- A 64-bit quantity with the word at the lower offset replaced (R82). -/
def setHi64 (x : Block) (v : Word) : Block := v ++ lo64 x

/-- A 64-bit quantity with the word at the higher offset replaced (R82). -/
def setLo64 (x : Block) (v : Word) : Block := hi64 x ++ v

/-- Bits [47:16] of a round key, bytes 0 to 3 (R46, R60). -/
def hi48 (k : RoundKey) : Word := k.extractLsb' 16 32

/-- Bits [15:0] of a round key, bytes 4 and 5, in [31:16] of the word; [15:0] read 0 (R46, R60). -/
def lo48 (k : RoundKey) : Word := k.extractLsb' 0 16 ++ 0#16

/-- A round key with bytes 0 to 3 replaced (R46). -/
def setHi48 (k : RoundKey) (v : Word) : RoundKey := v ++ k.extractLsb' 0 16

/-- A round key with bytes 4 and 5 replaced by [31:16] of the word; [15:0] are ignored (R46). -/
def setLo48 (k : RoundKey) (v : Word) : RoundKey := k.extractLsb' 16 32 ++ v.extractLsb' 16 16

/-- The halfword [15:0] as a register shows it, [31:16] reading 0 (R48). -/
def word16 (x : BitVec 16) : Word := x.setWidth 32

/-- The identification word "DES1" (R33). -/
def idWord : Word := 0x44455331

/-- CAP0: ROUNDS 16, RK_SIZE 6, HALF_BLOCK 4, BLOCK_SIZE 8 (R34). -/
def cap0Word : Word := 0x10060408

/-- CAP1: bit n is 1 exactly when an n-byte key is supported (R35). -/
def cap1Word : Word := 0x00000180

/-- CAP2: BUF_BLOCKS in [15:0] (R36). -/
def cap2Word (bufBlocks : Nat) : Word := word16 (BitVec.ofNat 16 bufBlocks)

/-- `is_valid_key_size(n)`: `n < 32 and CAP1[n] = 1` (R35). -/
def validKeySize (n : Nat) : Bool := n < 32 && cap1Word.getLsbD n

/-- `supported_key_sizes()`: the positions of the set bits of CAP1, ascending (R35). -/
def supportedKeySizes : List Nat := (List.range 32).filter (fun n => cap1Word.getLsbD n)

/-! ## The BUSY window -/

/-- The command in flight may write this register, so a read of it while BUSY = 1 is unspecified: the table of R281, read by
register. The command is told by its operation code alone, whether or not it will complete with an error (log entry 6). -/
def DesCore.mayWrite (d : DesCore) (r : Reg) : Bool :=
  let op := (opField d.latch.cmd).toNat
  match r with
  | .knorm0 | .knorm1 | .rkHi _ | .rkLo _ => op == 0x01 || op == 0x08
  | .xrkn | .xrkHi _ | .xrkLo _ => op == 0x02 || op == 0x08
  | .dout0 | .dout1 => op == 0x03 || op == 0x04 || op == 0x08
  | .hout => op == 0x05 || op == 0x08
  | .bufHi j | .bufLo j => (op == 0x06 || op == 0x07) && d.latch.inRange j
  | .key0 | .key1 | .din0 | .din1 | .hin | .rkin0 | .rkin1 => op == 0x08
  | .id | .cap0 | .cap1 | .cap2 | .ctrl | .status | .errcode | .cmd | .bufBase | .bufCnt => false

/-- A read of this register is unspecified now (R281). -/
def DesCore.unspecified (d : DesCore) (r : Reg) : Bool := d.busy && d.mayWrite r

/-- A write of this register is a hazard now: a BUF block inside the range of the buffer command in flight (R282). -/
def DesCore.writeHazard (d : DesCore) (r : Reg) : Bool :=
  match r with
  | .bufHi _ | .bufLo _ => d.unspecified r
  | _ => false

end Sys2Proof.Machine
end

