-- ==== Sys2Proof/Machine/Ops.lean ====
section
/-! DEFINITION. The named operations over memory and registers: bytes and words of BUF (`spec/20_memory.md` R85, R86), the
buffer primitives (R88), the register read and write of `spec/10_state.md` section 2, and how a command ends: success (R72)
or, once for all commands, the error of R242. The core has no trap; raising an error is its exception entry, and there
is no return from it (`spec/60_exceptions.md` R240, R252). -/

namespace Sys2Proof.Machine

/-! ## Bytes and words of BUF -/

/-- The byte at a port offset, none where nothing was written since reset (R75). -/
def Memory.read (m : Memory) (a : Nat) : Option Byte :=
  match m with
  | [] => Memory.unlisted
  | (k, b) :: rest => if k = a then some b else Memory.read rest a

/-- Store one byte, keeping the addresses strictly rising. -/
def Memory.write (m : Memory) (a : Nat) (v : Byte) : Memory :=
  match m with
  | [] => [(a, v)]
  | (k, b) :: rest =>
    if a < k then (a, v) :: (k, b) :: rest
    else if a = k then (a, v) :: rest
    else (k, b) :: Memory.write rest a v

/-- The word at an offset, byte 0 in [31:24] (R81); none where a byte of it was not written since reset. -/
def Memory.readWord (m : Memory) (a : Nat) : Option Word :=
  match m.read a, m.read (a + 1), m.read (a + 2), m.read (a + 3) with
  | some b0, some b1, some b2, some b3 => some (b0 ++ b1 ++ b2 ++ b3)
  | _, _, _, _ => none

/-- Store the four bytes of a word, byte 0 from [31:24] (R81, R86). -/
def Memory.writeWord (m : Memory) (a : Nat) (v : Word) : Memory :=
  (((m.write a (v.extractLsb' 24 8)).write (a + 1) (v.extractLsb' 16 8)).write (a + 2) (v.extractLsb' 8 8)).write
    (a + 3) (v.extractLsb' 0 8)

/-- The offset of BUF_HI[j]. -/
def bufHiAt (j : Nat) : Nat := Reg.offset (.bufHi j)

/-- The offset of BUF_LO[j]. -/
def bufLoAt (j : Nat) : Nat := Reg.offset (.bufLo j)

/-- BufRead(j) = BUF_HI[j] ‖ BUF_LO[j]; none where a word of the block was not written since reset (R88). -/
def Memory.bufRead (m : Memory) (j : Nat) : Option Block :=
  match m.readWord (bufHiAt j), m.readWord (bufLoAt j) with
  | some h, some l => some (h ++ l)
  | _, _ => none

/-- BufWrite(j, v) (R88). -/
def Memory.bufWrite (m : Memory) (j : Nat) (v : Block) : Memory :=
  (m.writeWord (bufHiAt j) (hi64 v)).writeWord (bufLoAt j) (lo64 v)

/-- The loop of R216 and R219 over `c` blocks from block `j`; none where it meets a block not written since reset. -/
def Memory.mapBlocks (f : Block → Block) (m : Memory) (j c : Nat) : Option Memory :=
  match c with
  | 0 => some m
  | c + 1 =>
    match m.bufRead j with
    | none => none
    | some x => Memory.mapBlocks f (m.bufWrite j (f x)) (j + 1) c

/-- BUFW: the "written since reset" bit of the word at an offset (R30, R75). -/
def DesCore.written (d : DesCore) (a : Nat) : Bool := (d.buf.readWord a).isSome

/-! ## Registers -/

/-- What a host read of a register returns outside the BUSY window (section 2 of `spec/10_state.md`); none for a BUF
word not written since reset. -/
def DesCore.readReg (d : DesCore) (bufBlocks : Nat) (r : Reg) : Option Word :=
  match r with
  | .id => some idWord
  | .cap0 => some cap0Word
  | .cap1 => some cap1Word
  | .cap2 => some (cap2Word bufBlocks)
  | .ctrl => some (0#31 ++ BitVec.ofBool d.ctrlIe)
  | .status => some d.statusWord
  | .errcode => some d.errWord
  | .cmd => some d.cmdLast
  | .key0 => some (hi64 d.key)
  | .key1 => some (lo64 d.key)
  | .knorm0 => some (hi64 d.knorm)
  | .knorm1 => some (lo64 d.knorm)
  | .din0 => some (hi64 d.din)
  | .din1 => some (lo64 d.din)
  | .dout0 => some (hi64 d.dout)
  | .dout1 => some (lo64 d.dout)
  | .hin => some d.hin
  | .rkin0 => some (hi48 d.rkin)
  | .rkin1 => some (lo48 d.rkin)
  | .hout => some d.hout
  | .bufBase => some (word16 d.bufBase)
  | .bufCnt => some (word16 d.bufCnt)
  | .xrkn => some (0#27 ++ d.xrkn)
  | .rkHi i => some (hi48 (d.rk.get i))
  | .rkLo i => some (lo48 (d.rk.get i))
  | .xrkHi i => some (hi48 (d.xrk.get i))
  | .xrkLo i => some (lo48 (d.xrk.get i))
  | .bufHi j => d.buf.readWord (bufHiAt j)
  | .bufLo j => d.buf.readWord (bufLoAt j)

/-- A host write to CMD: accepted when BUSY = 0, dropped otherwise (R40, R71, R113). -/
def DesCore.presentCommand (d : DesCore) (w : Word) : DesCore :=
  if d.busy then d.dropCommand else d.accept w

/-- What a host write of a register does (section 2 of `spec/10_state.md`); a write to an RO register and to reserved bits
is ignored (R84). -/
def DesCore.writeReg (d : DesCore) (r : Reg) (v : Word) : DesCore :=
  match r with
  | .ctrl => { d with ctrlIe := v.getLsbD 0 }
  | .status => d.writeStatus v
  | .cmd => d.presentCommand v
  | .key0 => { d with key := setHi64 d.key v }
  | .key1 => { d with key := setLo64 d.key v }
  | .din0 => { d with din := setHi64 d.din v }
  | .din1 => { d with din := setLo64 d.din v }
  | .hin => { d with hin := v }
  | .rkin0 => { d with rkin := setHi48 d.rkin v }
  | .rkin1 => { d with rkin := setLo48 d.rkin v }
  | .bufBase => { d with bufBase := v.extractLsb' 0 16 }
  | .bufCnt => { d with bufCnt := v.extractLsb' 0 16 }
  | .bufHi j => { d with buf := d.buf.writeWord (bufHiAt j) v }
  | .bufLo j => { d with buf := d.buf.writeWord (bufLoAt j) v }
  | .id | .cap0 | .cap1 | .cap2 | .errcode | .knorm0 | .knorm1 | .dout0 | .dout1 | .hout | .xrkn => d
  | .rkHi _ | .rkLo _ | .xrkHi _ | .xrkLo _ => d

/-! ## How a command ends -/

/-- What a step of the machine answers. -/
abbrev Result := Host.Outcome State Fault Refusal

/-- A successful completion that leaves the core as `d` and then the status as R72 says. -/
def State.complete (s : State) (d : DesCore) : Result := .next { s with des := d.finish }

/-- `raise`: the command ends with this error, and nothing but the status is written (R242). -/
def State.raise (s : State) (e : CmdError) : Result := .next { s with des := s.des.failWith e }

end Sys2Proof.Machine
end

