-- ==== Sys2Proof/Machine/Bus.lean ====
section
/-! DEFINITION. The host's accesses at the slave port (`spec/20_memory.md` R80 to R84): HostRead, HostWrite, the operations
of a host script (`spec/30_encoding.md` R118), and the reset line (`spec/70_reset_and_hazards.md` R270). -/

namespace Sys2Proof.Machine

/-- What a HostRead comes to. -/
inductive ReadOutcome where
  /-- it returns a value, in this state -/
  | value (v : Word) (s : State)
  /-- the program's fault -/
  | stop (f : Fault)
  deriving DecidableEq, Repr

/-- HostRead(off). While `rst` is asserted it returns 0 and has no effect (R270). A bad access returns 0 and sets AERR
(R83). A BUF word not written since reset is a fault (R75). A register the command in flight may write reads as a free
value (R281). Any other register reads exactly, and no read changes the core (R84). -/
def hostRead (off : Offset) (s : State) : ReadOutcome :=
  if s.rst then .value 0 s
  else
    match Reg.ofOffset s.cfg.bufBlocks off with
    | none => .value 0 { s with des := s.des.badAccess }
    | some r =>
      match s.des.readReg s.cfg.bufBlocks r with
      | none => .stop .unwrittenBuffer
      | some v =>
        if s.des.unspecified r then .value (Config.freeWord s.draws) { s with draws := s.draws + 1 }
        else .value v s

/-- HostWrite(off, v). While `rst` is asserted it is ignored (R270). A bad access changes nothing and sets AERR (R83). A
write of a block in the range of the buffer command in flight is a fault (R282). Any other write does what its register
says. -/
def hostWrite (off : Offset) (v : Word) (s : State) : Result :=
  if s.rst then .next s
  else
    match Reg.ofOffset s.cfg.bufBlocks off with
    | none => .next { s with des := s.des.badAccess }
    | some r =>
      if s.des.writeHazard r then .fault .bufferWriteHazard
      else .next { s with des := s.des.writeReg r v }

/-- The port's answer is recorded for the host. -/
def State.record (s : State) (off : Offset) (v : Word) : State := { s with reads := ⟨off, v⟩ :: s.reads }

/-- The next operation of the host's script; with none left the host does nothing (R80, R118). A `poll` whose value does
not match stays the next operation. -/
def hostTurn (s : State) : Result :=
  match s.script with
  | [] => .next s
  | .rd off :: rest =>
    match hostRead off s with
    | .value v t => .next { t.record off v with script := rest }
    | .stop f => .fault f
  | .wr off v :: rest => hostWrite off v { s with script := rest }
  | .poll off mask v :: rest =>
    match hostRead off s with
    | .value x t => .next { t.record off x with script := if x &&& mask = v then rest else s.script }
    | .stop f => .fault f

/-- Asserting `rst`: every component of the core takes its reset value, and a command in flight is abandoned (R270). -/
def assertReset (s : State) : Result := .next { s with des := DesCore.reset, rst := true }

/-- Releasing `rst`: the core answers the host again (R270). -/
def releaseReset (s : State) : Result := .next { s with rst := false }

end Sys2Proof.Machine
end

