-- ==== Sys2Proof/Machine/BlockCommands.lean ====
section
/-! DEFINITION. The block commands of `spec/42_block_commands.md`: ENC_BLOCK, DEC_BLOCK, ROUND_F, ENC_BUF, DEC_BUF. Each is
the completion step (`spec/10_state.md` R72) of the command in the latch, after the checks 1 and 2 of
`spec/60_exceptions.md` R243, which are the decoder's. -/

namespace Sys2Proof.Machine

/-- One block under the active key, from the latched DIN to DOUT (R210, R212). -/
def cryptBlock (dir : Direction) (s : State) : Result :=
  if s.des.init then s.complete { s.des with dout := desBlock s.des.latch.din s.des.rk dir }
  else s.raise .notInitialized

/-- The latched range of BUF in place: INIT is checked before the range (R216, R219, R243). A block not written since
reset is a fault of the program (R75, R88). -/
def cryptBuffer (dir : Direction) (s : State) : Result :=
  if s.des.init then
    if s.des.latch.rangeOk s.cfg.bufBlocks then
      match s.des.buf.mapBlocks (fun x => desBlock x s.des.rk dir) s.des.latch.base.toNat s.des.latch.cnt.toNat with
      | some m => s.complete { s.des with buf := m }
      | none => .fault .unwrittenBuffer
    else s.raise .bufferRange
  else s.raise .notInitialized

/-- ENC_BLOCK (R210). -/
def execEncBlock (s : State) : Result := cryptBlock .enc s

/-- DEC_BLOCK (R212). -/
def execDecBlock (s : State) : Result := cryptBlock .dec s

/-- ROUND_F: one evaluation of F on the latched half block and round key; INIT is not needed (R214). -/
def execRoundF (s : State) : Result :=
  s.complete { s.des with hout := roundFunction s.des.latch.hin s.des.latch.rkin }

/-- ENC_BUF (R216). -/
def execEncBuf (s : State) : Result := cryptBuffer .enc s

/-- DEC_BUF (R219). -/
def execDecBuf (s : State) : Result := cryptBuffer .dec s

end Sys2Proof.Machine
end

