-- ==== Sys2Proof/Machine/KeyCommands.lean ====
section
/-! DEFINITION. The key commands of `spec/41_key_commands.md`: KEY_INIT, KEY_EXPAND, ZEROIZE. Each is the completion step
(`spec/10_state.md` R72) of the command in the latch, after the checks 1 and 2 of `spec/60_exceptions.md` R243, which are
the decoder's. -/

namespace Sys2Proof.Machine

/-- KEY_INIT (R190). -/
def execKeyInit (klen : Nat) (s : State) : Result :=
  if keySizeOk klen then
    let kn := s.des.latch.normalisedKey klen
    s.complete { s.des with rk := keySchedule kn, knorm := kn, init := true }
  else s.raise .keySize

/-- KEY_EXPAND: the key length is checked before the number of rounds (R193, R243). -/
def execKeyExpand (klen nrk : Nat) (s : State) : Result :=
  if keySizeOk klen then
    if 16 < nrk then s.raise .roundCount
    else
      let c := roundCount nrk
      let ks := keySchedule (s.des.latch.normalisedKey klen)
      s.complete { s.des with xrk := firstKeys c ks, xrkn := BitVec.ofNat 5 c }
  else s.raise .keySize

/-- ZEROIZE: all key material is cleared; BUF and the range registers are not (R196). -/
def execZeroize (s : State) : Result :=
  s.complete
    { s.des with
      key := 0
      knorm := 0
      din := 0
      dout := 0
      hin := 0
      rkin := 0
      hout := 0
      rk := zeroBank
      xrk := zeroBank
      xrkn := 0
      init := false }

end Sys2Proof.Machine
end

