-- ==== Sys2Proof/Machine/Dispatch.lean ====
section
/-! DEFINITION. One arm per command, each a direct call of its meaning. -/

namespace Sys2Proof.Machine

/-- The completion step of a command (R72). -/
def exec (i : Instr) (s : State) : Host.Outcome State Fault Refusal :=
  match i with
  | .keyInit klen _ => Sys2Proof.Machine.execKeyInit klen s
  | .keyExpand klen nrk => Sys2Proof.Machine.execKeyExpand klen nrk s
  | .encBlock _ _ => Sys2Proof.Machine.execEncBlock s
  | .decBlock _ _ => Sys2Proof.Machine.execDecBlock s
  | .roundF _ _ => Sys2Proof.Machine.execRoundF s
  | .encBuf _ _ => Sys2Proof.Machine.execEncBuf s
  | .decBuf _ _ => Sys2Proof.Machine.execDecBuf s
  | .zeroize _ _ => Sys2Proof.Machine.execZeroize s

end Sys2Proof.Machine
end

