-- ==== Sys2Proof/Machine/Step.lean ====
section
/-! DEFINITION. One step of the machine: one turn of the host, of the engine, or of the reset line (`spec/00_scope.md` R17,
`spec/70_reset_and_hazards.md` R270). -/

namespace Sys2Proof.Machine

/-- Who moves: the head of the schedule. With an empty schedule a command in flight completes before the host goes on,
so that every command completes after finitely many steps (R72, R285; log entry 3). -/
def State.turn (s : State) : Turn :=
  match s.schedule with
  | t :: _ => t
  | [] => if s.des.busy then .engine else .host

/-- The state with the turn taken off the schedule. -/
def State.popTurn (s : State) : State := { s with schedule := s.schedule.tail }

/-- The engine's step: only when BUSY = 1, and not while `rst` is asserted. It decodes the latched word; a word that is
no command completes with its error (R72, R114, R243). -/
def engineTurn (s : State) : Result :=
  if s.rst || !s.des.busy then .next s
  else
    match decode s.des.latch.cmd with
    | .command i => exec i s
    | .illegal why => s.raise (CmdError.ofIllegal why)

/-- One step. A system with more than one master is refused (R80, U8). -/
def step (s : State) : Host.Outcome State Fault Refusal :=
  if 1 < s.cfg.masters then .refused .secondMaster
  else
    match s.turn with
    | .host => hostTurn s.popTurn
    | .engine => engineTurn s.popTurn
    | .rstAssert => assertReset s.popTurn
    | .rstRelease => releaseReset s.popTurn

/-- `s` with the command whose bits are `w` accepted (R71) and the engine to move, so that the very next step decodes and
runs it. The core fetches nothing (R32): a command comes from a host write to CMD, and this stands for that write (log
entry 4). -/
def State.withFetchWord (s : State) (nbits w : Nat) : State :=
  { s with des := s.des.accept (tableWord nbits w), rst := false, schedule := .engine :: s.schedule }

end Sys2Proof.Machine
end

