-- ==== Sys2Proof/Machine/Script.lean ====
section
/-! DEFINITION. The host's notation (`spec/30_encoding.md` R117 to R119): the assembler of the command syntax, the operations
of a script by register name, and the pseudo-instructions as the operations they expand to. -/

namespace Sys2Proof.Machine

/-- The mnemonics of R117. -/
inductive Mnemonic where
  | keyInit | keyExpand | encBlock | decBlock | roundF | encBuf | decBuf | zeroize
  deriving DecidableEq, Repr

/-- A line of the command syntax: the mnemonic, and `klen=` and `nrk=` where they are written (R117). -/
structure AsmLine where
  mnemonic : Mnemonic
  klen : Option Nat := none
  nrk : Option Nat := none
  deriving DecidableEq, Repr

/-- The command a line stands for; none where the line is no form of R117 or a value does not fit its field. `klen=` is
required by key_init and key_expand and written by no other, and an absent `nrk=` is 0. -/
def AsmLine.command (l : AsmLine) : Option Instr :=
  let i : Option Instr :=
    match l.mnemonic, l.klen, l.nrk with
    | .keyInit, some k, none => some (.keyInit k 0)
    | .keyExpand, some k, n => some (.keyExpand k (n.getD 0))
    | .encBlock, none, none => some (.encBlock 0 0)
    | .decBlock, none, none => some (.decBlock 0 0)
    | .roundF, none, none => some (.roundF 0 0)
    | .encBuf, none, none => some (.encBuf 0 0)
    | .decBuf, none, none => some (.decBuf 0 0)
    | .zeroize, none, none => some (.zeroize 0 0)
    | _, _, _ => none
  i.filter (fun c => decide c.WellFormed)

/-- The word a line assembles to (R117). -/
def AsmLine.word (l : AsmLine) : Option Word := l.command.map encode

/-! ## The text of a line (R117; log entry 16) -/

/-- The spelling of a mnemonic, in lower case (R117). -/
def Mnemonic.text : Mnemonic → List Char
  | .keyInit => ['k', 'e', 'y', '_', 'i', 'n', 'i', 't']
  | .keyExpand => ['k', 'e', 'y', '_', 'e', 'x', 'p', 'a', 'n', 'd']
  | .encBlock => ['e', 'n', 'c', '_', 'b', 'l', 'o', 'c', 'k']
  | .decBlock => ['d', 'e', 'c', '_', 'b', 'l', 'o', 'c', 'k']
  | .roundF => ['r', 'o', 'u', 'n', 'd', '_', 'f']
  | .encBuf => ['e', 'n', 'c', '_', 'b', 'u', 'f']
  | .decBuf => ['d', 'e', 'c', '_', 'b', 'u', 'f']
  | .zeroize => ['z', 'e', 'r', 'o', 'i', 'z', 'e']

/-- The mnemonic a word spells, in either case (R117). -/
def Mnemonic.ofText (cs : List Char) : Option Mnemonic :=
  [Mnemonic.keyInit, .keyExpand, .encBlock, .decBlock, .roundF, .encBuf, .decBuf, .zeroize].find?
    (fun m => m.text == cs.map Char.toLower)

/-- The text without the spaces around it. -/
def trimSpaces (cs : List Char) : List Char := ((cs.dropWhile (· == ' ')).reverse.dropWhile (· == ' ')).reverse

/-- The pieces of a text between commas. -/
def splitCommas (cs : List Char) : List (List Char) :=
  cs.foldr
    (fun c acc =>
      if c == ',' then [] :: acc
      else
        match acc with
        | [] => [[c]]
        | w :: ws => (c :: w) :: ws)
    [[]]

/-- The value of a digit in a base. -/
def digitValue (base : Nat) (c : Char) : Option Nat :=
  let d :=
    if '0' ≤ c ∧ c ≤ '9' then c.toNat - '0'.toNat
    else if 'a' ≤ c ∧ c ≤ 'f' then c.toNat - 'a'.toNat + 10
    else if 'A' ≤ c ∧ c ≤ 'F' then c.toNat - 'A'.toNat + 10
    else base
  if d < base then some d else none

/-- A number in a base, most significant digit first, at least one digit. -/
def numeralValue (base : Nat) (cs : List Char) : Option Nat :=
  if cs.isEmpty then none
  else cs.foldl (fun acc c => acc.bind (fun n => (digitValue base c).map (fun d => n * base + d))) (some 0)

/-- A decimal or 0x-hexadecimal value (R117). -/
def fieldValue : List Char → Option Nat
  | '0' :: 'x' :: rest => numeralValue 16 rest
  | cs => numeralValue 10 cs

/-- One `name=value` field put into a line; each name at most once (R117). -/
def AsmLine.setField (l : AsmLine) : List Char → Option AsmLine
  | 'k' :: 'l' :: 'e' :: 'n' :: '=' :: v =>
    if l.klen.isSome then none else (fieldValue v).map (fun n => { l with klen := some n })
  | 'n' :: 'r' :: 'k' :: '=' :: v =>
    if l.nrk.isSome then none else (fieldValue v).map (fun n => { l with nrk := some n })
  | _ => none

/-- The line a text spells: the mnemonic, then the fields with commas between them (R117). -/
def parseLine (cs : List Char) : Option AsmLine :=
  let cs := trimSpaces cs
  let rest := trimSpaces (cs.dropWhile (· != ' '))
  let fields := if rest.isEmpty then [] else (splitCommas rest).map trimSpaces
  (Mnemonic.ofText (cs.takeWhile (· != ' '))).bind (fun m =>
    fields.foldl (fun l f => l.bind (fun l => l.setField f)) (some { mnemonic := m }))

/-- The assembler: the word a text assembles to (R117). -/
def assemble (text : String) : Option Word := (parseLine text.toList).bind AsmLine.word

/-! ## Host scripts (R118, R119) -/

/-- The offset of a register as the port takes it (R80). -/
def Reg.portOffset (r : Reg) : Offset := BitVec.ofNat 16 r.offset

/-- `rd REG` (R118). -/
def rdReg (r : Reg) : List HostOp := [.rd r.portOffset]

/-- `wr REG, V` (R118, and `ld32` of R119). -/
def wrReg (r : Reg) (v : Word) : List HostOp := [.wr r.portOffset v]

/-- `poll REG, M, V` (R118). -/
def pollReg (r : Reg) (mask v : Word) : List HostOp := [.poll r.portOffset mask v]

/-- `cmd <command>` (R118). -/
def cmdOp (w : Word) : List HostOp := wrReg .cmd w

/-- `wait` (R119). -/
def waitOp : List HostOp := pollReg .status 0x00000001 0x00000000

/-- `run <command>` (R119). -/
def runOp (w : Word) : List HostOp := cmdOp w ++ waitOp

/-- `ld64` into the two words of a 64-bit quantity (R119). -/
def ld64 (hi lo : Reg) (x : Block) : List HostOp := wrReg hi (hi64 x) ++ wrReg lo (lo64 x)

/-- `ldrk X` (R119). -/
def ldrk (x : RoundKey) : List HostOp := wrReg .rkin0 (hi48 x) ++ wrReg .rkin1 (lo48 x)

/-- `rd64` of the two words of a 64-bit quantity, and `rdrk` of the two words of a round key (R119). -/
def rdPair (hi lo : Reg) : List HostOp := rdReg hi ++ rdReg lo

/-- The 64 bits `rd64` puts together from the words it read: h ‖ l (R119). -/
def joinBlock (h l : Word) : Block := h ++ l

/-- The 48 bits `rdrk` puts together from the words it read: h ‖ l[31:16] (R119). -/
def joinRoundKey (h l : Word) : RoundKey := h ++ l.extractLsb' 16 16

end Sys2Proof.Machine
end

