-- ==== Sys2Proof/Safety.lean ====
section
/-! DEFINITION. What counts as a safe run and a finished one, the invariant of the machine, and a few words that claims
use: a DES bit, the bytes of a block, odd parity, a round driven by the host. -/

namespace Sys2Proof.Machine

/-! ## Runs -/

/-- `k` steps from `s` meet no fault and no refusal. -/
def SafeFor (k : Nat) (s : State) : Prop := ∃ t, Sys2Proof.core.run k s = .next t

/-- The host's script is over and no command is in flight: only then has the run an end state
(`spec/92_eei_decisions.md` D25, `spec/93_implementation_defined.md` U15). -/
def State.Ended (s : State) : Prop := s.script = [] ∧ s.des.busy = false

/-- The program has kept to one command at a time, as STATUS.OVR shows (R280). -/
def State.OneAtATime (s : State) : Prop := s.des.ovr = false

/-! ## Words of the claims -/

/-- DES bit `n` of a vector, counted from 1 at the most significant end (R12). -/
def desBit {m : Nat} (v : BitVec m) (n : Nat) : Bool := v.getLsbD (m - n)

/-- Byte `i` of a block, byte 0 most significant (R13). -/
def blockByte (x : Block) (i : Nat) : Byte := x.extractLsb' (56 - 8 * i) 8

/-- The byte has an odd number of 1 bits (R164). -/
def oddParity (b : Byte) : Prop := ((List.range 8).countP (fun i => b.getLsbD i)) % 2 = 1

/-- All sixteen keys of a bank are one key (R170). -/
def OneKey (rk : KeyBank) : Prop := ∃ k : RoundKey, ∀ i : Fin 16, rk.get i = k

/-- The registers a command may write, the table of R281; the range of a buffer command is that of the latch. -/
def MayWrite (l : Latch) (r : Reg) : Instr → Prop
  | .keyInit _ _ => r = .knorm0 ∨ r = .knorm1 ∨ ∃ i, r = .rkHi i ∨ r = .rkLo i
  | .keyExpand _ _ => r = .xrkn ∨ ∃ i, r = .xrkHi i ∨ r = .xrkLo i
  | .encBlock _ _ | .decBlock _ _ => r = .dout0 ∨ r = .dout1
  | .roundF _ _ => r = .hout
  | .encBuf _ _ | .decBuf _ _ =>
    ∃ j, (r = .bufHi j ∨ r = .bufLo j) ∧ l.base.toNat ≤ j ∧ j < l.base.toNat + l.cnt.toNat
  | .zeroize _ _ =>
    r ∈ [.key0, .key1, .knorm0, .knorm1, .din0, .din1, .dout0, .dout1, .hin, .rkin0, .rkin1, .hout, .xrkn] ∨
      ∃ i, r = .rkHi i ∨ r = .rkLo i ∨ r = .xrkHi i ∨ r = .xrkLo i

/-- Feistel rounds driven by the host, one ROUND_F for each key: the host puts R and the key into the operands, and takes
HOUT as T (R215). None where a ROUND_F does not answer next. -/
def hostRounds (s : State) : List RoundKey → Word × Word → Option (Word × Word)
  | [], lr => some lr
  | k :: ks, lr =>
    match exec (.roundF 0 0) { s with des := { s.des with latch := { s.des.latch with hin := lr.2, rkin := k } } } with
    | .next t => hostRounds t ks (lr.2, lr.1 ^^^ t.des.hout)
    | _ => none

/-! ## The invariant -/

/-- What every reachable core satisfies. -/
structure DesCore.Inv (bufBlocks : Nat) (d : DesCore) : Prop where
  /-- the memory is in its canonical form -/
  canonical : d.buf.wf
  /-- only bytes of BUF are listed (R85, R89) -/
  inWindow : ∀ c ∈ d.buf, 0x8000 ≤ c.1 ∧ c.1 < 0x8000 + 8 * bufBlocks
  /-- a word of BUF was written whole or not at all (R82, R86) -/
  wholeWords : ∀ a k, a % 4 = 0 → k < 4 → ((d.buf.read (a + k)).isSome = (d.buf.read a).isSome)
  /-- the error fields hold a row of the table of R241 (U12) -/
  errorRow : (d.errCode, d.errInfo) ∈ [(0, 0), (1, 1), (1, 2), (1, 3), (1, 4), (1, 5), (2, 0)]
  /-- while a command is in flight DONE and the error are clear (R71) -/
  inFlight : d.busy = true → d.done = false ∧ d.errCode = 0
  /-- XRKN is 0 to 16 (R49) -/
  xrknRange : d.xrkn.toNat ≤ 16
  /-- the entries of XRK from XRKN on are 0 (R193) -/
  xrkRest : ∀ i : Fin 16, d.xrkn.toNat ≤ i.val → d.xrk.get i = 0
  /-- INIT says that RK is the schedule of the normalised key shown, whose bytes have odd parity (R38, R164, R190) -/
  initialised : d.init = true → d.rk = keySchedule d.knorm ∧ ∀ i < 8, oddParity (blockByte d.knorm i)
  /-- with INIT clear no active key is left (R75, R196) -/
  noKey : d.init = false → d.rk = zeroBank ∧ d.knorm = 0

/-- What every reachable state satisfies: the core's invariant, and a core held in reset while `rst` is asserted (R270). -/
structure State.Inv (s : State) : Prop where
  core : s.des.Inv s.cfg.bufBlocks
  held : s.rst = true → s.des = DesCore.reset

end Sys2Proof.Machine
end

