-- ==== Sys2Proof/Certificates/Slice0/Obligations.lean ====
section
/-! DEFINITION. The statements for the provers, in the order of the spec: encoding, DES functions, commands, the port and the
status, reset, whole machine. Each docstring names the rule it formalises. A statement over `exec` that ends in
`= .next { s with des := { s.des with … } }` states its frame too: every field not named there is as it was, all of BUF
among them. -/

open Sys2Proof Sys2Proof.Machine

/-! ## Encoding -/

/-- Words written out from R110, R111 and the examples of R117 decode to the commands they stand for, and the words of
`spec/95_test_vectors.md` 2.8 that are no command are rejected. -/
def Obligations.DecodeOfWrittenWords : Prop :=
  decode 0x00000801 = .command (.keyInit 8 0) ∧ decode 0x00000701 = .command (.keyInit 7 0) ∧
  decode 0x00020802 = .command (.keyExpand 8 2) ∧ decode 0x00100802 = .command (.keyExpand 8 16) ∧
  decode 0x001F0F03 = .command (.encBlock 15 31) ∧ decode 0x00000004 = .command (.decBlock 0 0) ∧
  decode 0x001F0F05 = .command (.roundF 15 31) ∧ decode 0x00000006 = .command (.encBuf 0 0) ∧
  decode 0x00000007 = .command (.decBuf 0 0) ∧ decode 0x00000008 = .command (.zeroize 0 0) ∧
  decode 0x00000000 = .illegal .reservedOp ∧ decode 0x00000009 = .illegal .reservedOp ∧
  decode 0xFFFFFFFF = .illegal .reservedOp ∧ decode 0x80000003 = .illegal .reservedBits ∧
  decode 0x00008005 = .illegal .reservedBits ∧ decode 0x00200005 = .illegal .reservedBits

/-- No bit of a command is lost in its word, and no word of a command holds a bit its command does not: decoding and
encoding undo each other (R110, R111, R114). -/
def Obligations.DecodeAndEncodeAgree : Prop :=
  (∀ i : Instr, i.WellFormed → decode (encode i) = .command i) ∧
  ∀ (w : Word) (i : Instr), decode w = .command i → i.WellFormed ∧ encode i = w

/-- R116: the well-formed words of the row with operation code `op` are the words `w` with `w & 0xFFE0F0FF = OP`. -/
def Obligations.CommandWordsAreTheMaskedRows : Prop :=
  ∀ (w : Word) (op : Nat),
    (∃ i, decode w = .command i ∧ i.opcode = op) ↔ 1 ≤ op ∧ op ≤ 8 ∧ w &&& 0xFFE0F0FF#32 = BitVec.ofNat 32 op

/-- R115: a reserved operation code decodes as Illegal(INFO = 1); a defined one with a reserved bit set as
Illegal(INFO = 2). -/
def Obligations.ReservedWordsAreIllegal : Prop :=
  ∀ w : Word,
    ((w &&& 0xFF#32 = 0 ∨ 9 ≤ (w &&& 0xFF#32).toNat) →
      ∃ why, decode w = .illegal why ∧ (CmdError.ofIllegal why).info = 1) ∧
    (1 ≤ (w &&& 0xFF#32).toNat → (w &&& 0xFF#32).toNat ≤ 8 → w &&& 0xFFE0F000#32 ≠ 0 →
      ∃ why, decode w = .illegal why ∧ (CmdError.ofIllegal why).info = 2)

/-! ## DES functions -/

/-- R141: output DES bit `j` of a permutation is input DES bit `T[j]`. -/
def Obligations.PermuteMovesDesBits : Prop :=
  ∀ (m n : Nat) (t : List Nat) (v : BitVec m), t.length = n → (∀ x ∈ t, 1 ≤ x ∧ x ≤ m) →
    ∀ j, 1 ≤ j → j ≤ n → desBit (permute n t v) j = desBit v (t.getD (j - 1) 0)

/-- R145: IPINV_T inverts IP_T entry by entry, and IP⁻¹ and IP undo each other on every block. -/
def Obligations.InitialPermutationsInverse : Prop :=
  (∀ j, 1 ≤ j → j ≤ 64 → ipInvTable.getD (ipTable.getD (j - 1) 0 - 1) 0 = j) ∧
  ∀ x : Block, ipInv (ip x) = x ∧ ip (ipInv x) = x

/-- R162: with C₀ and D₀ the halves of PC1(KN) and C_r, D_r their rotations by SHIFT[r], K_r is PC2(C_r ‖ D_r); and the
rule's worked example. -/
def Obligations.RoundKeysFollowTheRotations : Prop :=
  (∀ (kn : Block) (c d : Nat → BitVec 28), c 0 ++ d 0 = pc1 kn →
    (∀ r < 16, c (r + 1) = rotl28 (c r) (shifts.getD r 0) ∧ d (r + 1) = rotl28 (d r) (shifts.getD r 0)) →
    ∀ r : Fin 16, (keySchedule kn).get r = pc2 (c (r.val + 1) ++ d (r.val + 1))) ∧
  (keySchedule 0x133457799BBCDFF1#64).get 0 = 0x1B02EFFC7072 ∧ (keySchedule 0x133457799BBCDFF1#64).get 15 = 0xCB3D8B0E17F5

/-- R163: the shift schedule, its sum, and that sixteen rotations bring a half back. -/
def Obligations.SixteenRotationsReturn : Prop :=
  shifts = [1, 1, 2, 2, 2, 2, 2, 2, 1, 2, 2, 2, 2, 2, 2, 1] ∧ shifts.sum = 28 ∧
  ∀ c : BitVec 28, shifts.foldl rotl28 c = c

/-- R164: the normalised key keeps the high seven bits of each byte of an 8-byte key, or spreads the 56 bits of a 7-byte
key over the high seven bits of eight bytes in order, and every byte of it has odd parity; and the rule's worked
examples. -/
def Obligations.KeyNormalisationSpreadsAndSetsParity : Prop :=
  (∀ (key : Block) (i : Nat), i < 8 →
    ((blockByte (keyNorm (keyBytes 8 key) 8) i).extractLsb' 1 7 = (blockByte key i).extractLsb' 1 7 ∧
      oddParity (blockByte (keyNorm (keyBytes 8 key) 8) i)) ∧
    ((blockByte (keyNorm (keyBytes 7 key) 7) i).extractLsb' 1 7 = key.extractLsb' (57 - 7 * i) 7 ∧
      oddParity (blockByte (keyNorm (keyBytes 7 key) 7) i))) ∧
  par 0x00 = 0x01 ∧ par 0xFF = 0xFE ∧ keyNorm [0, 0, 0, 0, 0, 0, 0] 7 = 0x0101010101010101 ∧
  keyNorm [0x12, 0x69, 0x5B, 0xC9, 0xB7, 0xB7, 0xF8] 7 = 0x133457799BBCDFF1

/-- R165: keys that differ only in the low bits of their bytes have the same round keys, so parity regeneration never
changes them. -/
def Obligations.ParityBitsNeverReachRoundKeys : Prop :=
  (∀ a b : Block, (∀ i < 64, i % 8 ≠ 0 → a.getLsbD i = b.getLsbD i) → keySchedule a = keySchedule b) ∧
  ∀ key : Block, keySchedule (keyNorm (keyBytes 8 key) 8) = keySchedule key

/-- R166: with (L₀, R₀) the halves of the block and (L, R) becoming (R, L ⊕ F(R, k_r)) in round r, the scaffold answers
R₁₆ ‖ L₁₆. -/
def Obligations.FeistelSwapsTheLastHalves : Prop :=
  ∀ (ks : KeyBank) (x : Block) (l r : Nat → Word), l 0 ++ r 0 = x →
    (∀ n (h : n < 16), l (n + 1) = r n ∧ r (n + 1) = l n ^^^ roundFunction (r n) (ks.get ⟨n, h⟩)) →
    feistel ks.toList x = r 16 ++ l 16

/-- R168: decryption undoes encryption and encryption undoes decryption, for every bank of round keys and every block. -/
def Obligations.DecryptionInvertsEncryption : Prop :=
  ∀ (rk : KeyBank) (x : Block), desBlock (desBlock x rk .enc) rk .dec = x ∧ desBlock (desBlock x rk .dec) rk .enc = x

/-- R169: complementing the key and the block complements the result. -/
def Obligations.ComplementationProperty : Prop :=
  ∀ kn x : Block, desBlock (~~~x) (keySchedule (~~~kn)) .enc = ~~~(desBlock x (keySchedule kn) .enc)

/-- Corner case (c) of ROUND_F: complementing both operands of F leaves its result. -/
def Obligations.RoundFunctionIgnoresJointComplement : Prop :=
  ∀ (r : Word) (k : RoundKey), roundFunction (~~~r) (~~~k) = roundFunction r k

/-- R170: under sixteen equal round keys both directions agree and encrypting twice returns the block; the four keys listed
give sixteen equal round keys, 0 for the first. -/
def Obligations.WeakKeysMakeInvolutions : Prop :=
  (∀ (rk : KeyBank) (x : Block), OneKey rk →
    desBlock x rk .enc = desBlock x rk .dec ∧ desBlock (desBlock x rk .enc) rk .enc = x) ∧
  (∀ kn ∈ [0x0101010101010101#64, 0xFEFEFEFEFEFEFEFE#64, 0xE0E0E0E0F1F1F1F1#64, 0x1F1F1F1F0E0E0E0E#64],
    OneKey (keySchedule kn)) ∧
  ∀ i : Fin 16, (keySchedule 0x0101010101010101#64).get i = 0

/-- R215: sixteen ROUND_F commands of the host with the keys RK[0..15], between IP and IP⁻¹, give what ENC_BLOCK gives. Each
round's operands are placed in the latch, where acceptance would put HIN and RKIN, and not in those registers. -/
def Obligations.SixteenHostRoundsEqualEncBlock : Prop :=
  ∀ (s : State) (klen nrk : Nat), s.des.init = true →
    ∃ lr t, hostRounds s s.des.rk.toList (hi64 (ip s.des.latch.din), lo64 (ip s.des.latch.din)) = some lr ∧
      exec (.encBlock klen nrk) s = .next t ∧ t.des.dout = ipInv (lr.2 ++ lr.1)

/-! ## Commands -/

/-- KEY_INIT with a supported key length completes: RK takes the schedule of the normalised latched key, KNORM shows that
key, INIT is set, the status is a success, and nothing else changes (XRK, XRKN, DOUT, HOUT and BUF among it). -/
def Obligations.KeyInitLoadsTheSchedule : Prop :=
  ∀ (klen nrk : Nat) (s : State), klen = 7 ∨ klen = 8 →
    exec (.keyInit klen nrk) s = .next { s with des := { s.des with
      rk := keySchedule (keyNorm (keyBytes klen s.des.latch.key) klen)
      knorm := keyNorm (keyBytes klen s.des.latch.key) klen
      init := true, busy := false, done := true, errCode := 0, errInfo := 0 } }

/-- KEY_EXPAND with a supported key length and at most 16 rounds completes: the first c entries of XRK are the first c round
keys of the latched key, the others 0, XRKN is c, with c = 16 where NRK is 0; nothing else changes but the status. -/
def Obligations.KeyExpandFillsTheExpansionBank : Prop :=
  ∀ (klen nrk : Nat) (s : State), klen = 7 ∨ klen = 8 → nrk ≤ 16 →
    ∃ t, exec (.keyExpand klen nrk) s = .next t ∧
      (∀ i : Fin 16, t.des.xrk.get i =
        if i.val < (if nrk = 0 then 16 else nrk) then
          (keySchedule (keyNorm (keyBytes klen s.des.latch.key) klen)).get i
        else 0) ∧
      t.des.xrkn.toNat = (if nrk = 0 then 16 else nrk) ∧
      t = { s with des := { s.des with
        xrk := t.des.xrk, xrkn := t.des.xrkn, busy := false, done := true, errCode := 0, errInfo := 0 } }

/-- Corner case (e) of KEY_EXPAND: where KEY_INIT and KEY_EXPAND of one latched key and key length both succeed, the entries
of XRK below XRKN are the entries of RK that the KEY_INIT gives. -/
def Obligations.KeyExpandAgreesWithKeyInit : Prop :=
  ∀ (klen nrk m : Nat) (s t u : State), exec (.keyInit klen m) s = .next t → t.des.errCode = 0 →
    exec (.keyExpand klen nrk) s = .next u → u.des.errCode = 0 →
    ∀ i : Fin 16, i.val < u.des.xrkn.toNat → u.des.xrk.get i = t.des.rk.get i

/-- ZEROIZE completes: KEY, KNORM, DIN, DOUT, HIN, RKIN, HOUT, every entry of RK and XRK, XRKN and INIT are 0, the status is a
success, and nothing else changes (BUF, BUFBASE, BUFCNT, CTRL, CMD_LAST, OVR, AERR among it). -/
def Obligations.ZeroizeClearsKeyMaterial : Prop :=
  ∀ (klen nrk : Nat) (s : State), ∃ t, exec (.zeroize klen nrk) s = .next t ∧
    (∀ i : Fin 16, t.des.rk.get i = 0 ∧ t.des.xrk.get i = 0) ∧
    t = { s with des := { s.des with
      key := 0, knorm := 0, din := 0, dout := 0, hin := 0, rkin := 0, hout := 0, rk := t.des.rk, xrk := t.des.xrk
      xrkn := 0, init := false, busy := false, done := true, errCode := 0, errInfo := 0 } }

/-- ENC_BLOCK and DEC_BLOCK complete when INIT = 1: DOUT is the block transform of the latched DIN under RK, and nothing else
changes but the status. -/
def Obligations.BlockCommandsWriteDout : Prop :=
  ∀ (klen nrk : Nat) (s : State), s.des.init = true →
    exec (.encBlock klen nrk) s = .next { s with des := { s.des with
      dout := ipInv (feistel s.des.rk.toList (ip s.des.latch.din))
      busy := false, done := true, errCode := 0, errInfo := 0 } } ∧
    exec (.decBlock klen nrk) s = .next { s with des := { s.des with
      dout := ipInv (feistel s.des.rk.toList.reverse (ip s.des.latch.din))
      busy := false, done := true, errCode := 0, errInfo := 0 } }

/-- ROUND_F completes in every state: HOUT is F of the latched operands, and nothing else changes but the status. INIT is
not needed. -/
def Obligations.RoundFWritesHout : Prop :=
  ∀ (klen nrk : Nat) (s : State),
    exec (.roundF klen nrk) s = .next { s with des := { s.des with
      hout := pBox (sLayer (expand s.des.latch.hin ^^^ s.des.latch.rkin))
      busy := false, done := true, errCode := 0, errInfo := 0 } }

/-- ENC_BUF and DEC_BUF complete when INIT = 1, the range is in the buffer and every block of it was written: each block of
the range becomes its transform under RK, every byte of memory outside the range reads as before, and nothing else changes
but the status. With a count of 0 no byte changes. -/
def Obligations.BufferCommandsTransformTheRange : Prop :=
  ∀ (klen nrk : Nat) (s : State) (i : Instr) (dir : Direction),
    (i = .encBuf klen nrk ∧ dir = .enc) ∨ (i = .decBuf klen nrk ∧ dir = .dec) →
    s.des.init = true → s.des.latch.base.toNat + s.des.latch.cnt.toNat ≤ s.cfg.bufBlocks →
    (∀ j, s.des.latch.base.toNat ≤ j → j < s.des.latch.base.toNat + s.des.latch.cnt.toNat →
      (s.des.buf.bufRead j).isSome = true) →
    ∃ t, exec i s = .next t ∧
      (∀ j x, s.des.latch.base.toNat ≤ j → j < s.des.latch.base.toNat + s.des.latch.cnt.toNat →
        s.des.buf.bufRead j = some x → t.des.buf.bufRead j = some (desBlock x s.des.rk dir)) ∧
      (∀ a, a < 0x8000 + 8 * s.des.latch.base.toNat ∨
          0x8000 + 8 * (s.des.latch.base.toNat + s.des.latch.cnt.toNat) ≤ a →
        t.des.buf.read a = s.des.buf.read a) ∧
      t = { s with des := { s.des with
        buf := t.des.buf, busy := false, done := true, errCode := 0, errInfo := 0 } }

/-- A buffer command over a range with a block that has a word not written since reset is a fault of the program (R75, R88). -/
def Obligations.BufferCommandFaultsOnUnwrittenBlock : Prop :=
  ∀ (klen nrk : Nat) (s : State) (j : Nat),
    s.des.init = true → s.des.latch.base.toNat + s.des.latch.cnt.toNat ≤ s.cfg.bufBlocks →
    s.des.latch.base.toNat ≤ j → j < s.des.latch.base.toNat + s.des.latch.cnt.toNat →
    s.des.buf.bufRead j = none →
    exec (.encBuf klen nrk) s = .fault .unwrittenBuffer ∧ exec (.decBuf klen nrk) s = .fault .unwrittenBuffer

/-- DEC_BUF over the range an ENC_BUF of the same RK encrypted restores the buffer byte for byte, as equal data, and so the
other way round, from every state that meets the invariant. -/
def Obligations.DecBufRestoresWhatEncBufDid : Prop :=
  ∀ (k n k' n' : Nat) (s t : State), s.Inv → s.des.init = true →
    (exec (.encBuf k n) s = .next t → ∃ u, exec (.decBuf k' n') t = .next u ∧ u.des.buf = s.des.buf) ∧
    (exec (.decBuf k n) s = .next t → ∃ u, exec (.encBuf k' n') t = .next u ∧ u.des.buf = s.des.buf)

/-- A command that is no buffer command leaves every byte of memory as it was. -/
def Obligations.OtherCommandsStoreNothing : Prop :=
  ∀ (i : Instr) (s t : State), (∀ k n, i ≠ .encBuf k n ∧ i ≠ .decBuf k n) → exec i s = .next t →
    ∀ a, t.des.buf.read a = s.des.buf.read a

/-- R242: raising an error writes its code and its detail to ERRCODE, clears BUSY and sets DONE, and a command that completes
with an error has written nothing else. -/
def Obligations.ErrorsArePrecise : Prop :=
  (∀ (s : State) (e : CmdError), s.raise e = .next { s with des := { s.des with
    errCode := e.code, errInfo := e.info, busy := false, done := true } }) ∧
  ∀ (i : Instr) (s t : State), exec i s = .next t → t.des.errCode ≠ 0 →
    t = { s with des := { s.des with
      errCode := t.des.errCode, errInfo := t.des.errInfo, busy := false, done := true } }

/-- R243: the engine reports the first check that fails, in the order decode, reserved bits, INIT, key size, number of
rounds, range; the effect of a word that passes them all is applied, and it does not complete with an error. -/
def Obligations.FirstFailingCheckIsReported : Prop :=
  ∀ (s : State) (op klen nrk : Nat), s.rst = false → s.des.busy = true →
    op = s.des.latch.cmd.toNat % 0x100 → klen = s.des.latch.cmd.toNat / 0x100 % 0x10 →
    nrk = s.des.latch.cmd.toNat / 0x10000 % 0x20 →
    let fails (e : CmdError) : Prop := engineTurn s = .next { s with des := { s.des with
      errCode := e.code, errInfo := e.info, busy := false, done := true } }
    if op < 1 ∨ 8 < op then fails .reservedOp
    else if s.des.latch.cmd &&& 0xFFE0F000#32 ≠ 0 then fails .reservedBits
    else if (op = 3 ∨ op = 4 ∨ op = 6 ∨ op = 7) ∧ s.des.init = false then fails .notInitialized
    else if (op = 1 ∨ op = 2) ∧ ¬(klen = 7 ∨ klen = 8) then fails .keySize
    else if op = 2 ∧ 16 < nrk then fails .roundCount
    else if (op = 6 ∨ op = 7) ∧ s.cfg.bufBlocks < s.des.latch.base.toNat + s.des.latch.cnt.toNat then fails .bufferRange
    else (∃ i, decode s.des.latch.cmd = .command i ∧ i.opcode = op ∧ i.klen = klen ∧ i.nrk = nrk ∧
        engineTurn s = exec i s) ∧
      (engineTurn s = .fault .unwrittenBuffer ∨ ∃ t, engineTurn s = .next t ∧ t.des.errCode = 0 ∧ t.des.errInfo = 0)

/-- R240: every command completes, with BUSY clear and DONE set; the model's only stop is a buffer command over a block not
written since reset, which R75 makes the program's fault. -/
def Obligations.EveryCommandCompletes : Prop :=
  ∀ (i : Instr) (s : State),
    (∃ t, exec i s = .next t ∧ t.des.busy = false ∧ t.des.done = true) ∨
    (exec i s = .fault .unwrittenBuffer ∧ ∃ k n, i = .encBuf k n ∨ i = .decBuf k n)

/-! ## A step -/

/-- The engine's step runs the command decoded from the latched word (R72, R114); around it the step only takes the
engine's turn off the schedule, which is the model's (log entry 3). -/
def Obligations.StepRunsTheDecodedCommand : Prop :=
  ∀ (s : State) (i : Instr), s.cfg.masters ≤ 1 → s.turn = .engine → s.rst = false → s.des.busy = true →
    decode s.des.latch.cmd = .command i → step s = exec i { s with schedule := s.schedule.tail }

/-- A latched word that is no command completes as InvalidArgument with its INFO and changes nothing else but the status
(R114, R241); the schedule is the model's (log entry 3). -/
def Obligations.StepCompletesAnIllegalWord : Prop :=
  ∀ (s : State) (why : Illegal), s.cfg.masters ≤ 1 → s.turn = .engine → s.rst = false → s.des.busy = true →
    decode s.des.latch.cmd = .illegal why →
    step s = .next { s with
      schedule := s.schedule.tail
      des := { s.des with
        busy := false, done := true, errCode := 1
        errInfo := match why with | .reservedOp => 1 | .reservedBits => 2 } }

/-- The word that `withFetchWord` places is the very next command the machine runs, from the state in which it was accepted
(log entry 4). -/
def Obligations.FetchWordRunsNext : Prop :=
  ∀ (s : State) (w : Word) (i : Instr), s.cfg.masters ≤ 1 → decode w = .command i →
    step (s.withFetchWord 32 w.toNat) = exec i { s with des := s.des.accept w, rst := false }

/-- With no command in flight and no access to make, a step keeps every part of the core and of the outside world (R260);
it only takes a turn off the schedule, which is the model's (log entry 3). -/
def Obligations.IdleStepKeepsState : Prop :=
  ∀ s : State, s.cfg.masters ≤ 1 → s.des.busy = false → s.script = [] → s.turn = .host ∨ s.turn = .engine →
    step s = .next { s with schedule := s.schedule.tail }

/-- R80: a system with two masters on the port is refused. -/
def Obligations.SecondMasterRefused : Prop := ∀ s : State, 2 ≤ s.cfg.masters → step s = .refused .secondMaster

/-! ## The port and the status -/

/-- R71: a write of any word to CMD while BUSY = 0 is accepted: CMD_LAST and LATCH take it with the operands of that moment,
BUSY rises, DONE and the error fields fall, and no other state changes; a word that is no command is accepted too, and
completes with an error. -/
def Obligations.CommandWriteIsAccepted : Prop :=
  ∀ (s : State) (w : Word), s.rst = false → s.des.busy = false →
    hostWrite 0x01C w s = .next { s with des := { s.des with
      cmdLast := w
      latch := { cmd := w, key := s.des.key, din := s.des.din, hin := s.des.hin, rkin := s.des.rkin
                 base := s.des.bufBase, cnt := s.des.bufCnt }
      busy := true, done := false, errCode := 0, errInfo := 0 } } ∧
    ∀ t why, hostWrite 0x01C w s = .next t → decode w = .illegal why →
      ∃ u, engineTurn t = .next u ∧ u.des.busy = false ∧ u.des.errCode = 1

/-- R113: a write to CMD while BUSY = 1 is dropped and sets OVR; nothing else changes. -/
def Obligations.CommandWriteWhileBusyIsDropped : Prop :=
  ∀ (s : State) (w : Word), s.rst = false → s.des.busy = true →
    hostWrite 0x01C w s = .next { s with des := { s.des with ovr := true } }

/-- R83: a misaligned or unmapped access reads 0, writes nothing, and sets AERR; it has no other effect. -/
def Obligations.BadAccessSetsAerr : Prop :=
  ∀ (s : State) (off : Offset) (v : Word), s.rst = false →
    (off.toNat % 4 ≠ 0 ∨ (0x05C ≤ off.toNat ∧ off.toNat < 0x100) ∨ (0x200 ≤ off.toNat ∧ off.toNat < 0x8000) ∨
      0x8000 + 8 * s.cfg.bufBlocks ≤ off.toNat) →
    hostRead off s = .value 0 { s with des := { s.des with aerr := true } } ∧
    hostWrite off v s = .next { s with des := { s.des with aerr := true } }

/-- The register map: each register of the build is reached at its offset, and an offset reaches only the register whose
offset it is (`spec/10_state.md` section 2, R89). -/
def Obligations.RegisterMapIsExact : Prop :=
  ∀ n : Nat, n ≤ 4096 →
    (∀ r : Reg, r.Exists n → Reg.ofOffset n r.portOffset = some r) ∧
    ∀ (off : Offset) (r : Reg), Reg.ofOffset n off = some r → r.Exists n ∧ r.offset = off.toNat

/-- What the registers below the banks read with no command in flight (`spec/10_state.md` section 2, R33 to R49). -/
def Obligations.RegisterReadValues : Prop :=
  ∀ s : State, s.rst = false → s.des.busy = false →
    hostRead 0x000 s = .value 0x44455331 s ∧ hostRead 0x004 s = .value 0x10060408 s ∧
    hostRead 0x008 s = .value 0x00000180 s ∧ hostRead 0x00C s = .value ((BitVec.ofNat 16 s.cfg.bufBlocks).setWidth 32) s ∧
    hostRead 0x010 s = .value (if s.des.ctrlIe then 1 else 0) s ∧
    hostRead 0x018 s = .value (0#20 ++ s.des.errInfo ++ 0#4 ++ s.des.errCode) s ∧
    hostRead 0x01C s = .value s.des.cmdLast s ∧
    hostRead 0x020 s = .value (s.des.key.extractLsb' 32 32) s ∧ hostRead 0x024 s = .value (s.des.key.extractLsb' 0 32) s ∧
    hostRead 0x028 s = .value (s.des.knorm.extractLsb' 32 32) s ∧
    hostRead 0x02C s = .value (s.des.knorm.extractLsb' 0 32) s ∧
    hostRead 0x030 s = .value (s.des.din.extractLsb' 32 32) s ∧ hostRead 0x034 s = .value (s.des.din.extractLsb' 0 32) s ∧
    hostRead 0x038 s = .value (s.des.dout.extractLsb' 32 32) s ∧
    hostRead 0x03C s = .value (s.des.dout.extractLsb' 0 32) s ∧
    hostRead 0x040 s = .value s.des.hin s ∧ hostRead 0x044 s = .value (s.des.rkin.extractLsb' 16 32) s ∧
    hostRead 0x048 s = .value (s.des.rkin.extractLsb' 0 16 ++ 0#16) s ∧ hostRead 0x04C s = .value s.des.hout s ∧
    hostRead 0x050 s = .value (s.des.bufBase.setWidth 32) s ∧ hostRead 0x054 s = .value (s.des.bufCnt.setWidth 32) s ∧
    hostRead 0x058 s = .value (s.des.xrkn.setWidth 32) s

/-- The words of the two banks read with no command in flight: entry i of RK at 0x100 + 8i and of XRK at 0x180 + 8i, bytes 0
to 3 in the first word, bytes 4 and 5 in the upper half of the second (R60 to R62). -/
def Obligations.KeyBankReadValues : Prop :=
  ∀ (s : State) (i : Fin 16), s.rst = false → s.des.busy = false →
    hostRead (BitVec.ofNat 16 (0x100 + 8 * i.val)) s = .value ((s.des.rk.get i).extractLsb' 16 32) s ∧
    hostRead (BitVec.ofNat 16 (0x104 + 8 * i.val)) s = .value ((s.des.rk.get i).extractLsb' 0 16 ++ 0#16) s ∧
    hostRead (BitVec.ofNat 16 (0x180 + 8 * i.val)) s = .value ((s.des.xrk.get i).extractLsb' 16 32) s ∧
    hostRead (BitVec.ofNat 16 (0x184 + 8 * i.val)) s = .value ((s.des.xrk.get i).extractLsb' 0 16 ++ 0#16) s

/-- R35: CAP1 reads 0x180 at all times and ignores writes, its bit n is 1 for 7 and 8 alone, the key-size query is true of 7
and 8 alone, and the list of supported sizes is [7, 8]. -/
def Obligations.KeySizeQueries : Prop :=
  (∀ (s : State) (v : Word), s.rst = false → hostRead 0x008 s = .value 0x00000180 s ∧ hostWrite 0x008 v s = .next s) ∧
  (∀ n : Nat, (0x00000180#32).getLsbD n = true ↔ n = 7 ∨ n = 8) ∧
  (∀ n : Nat, validKeySize n = true ↔ n = 7 ∨ n = 8) ∧ supportedKeySizes = [7, 8]

/-- The bits of STATUS as a read shows them, in every state, and what a write to STATUS does: DONE, OVR and AERR are cleared
where the written bit is 1, and nothing else changes (R38). -/
def Obligations.StatusBitsAndWriteOneToClear : Prop :=
  ∀ (s : State) (v : Word), s.rst = false →
    (∃ x, hostRead 0x014 s = .value x s ∧ x.getLsbD 0 = s.des.busy ∧ x.getLsbD 1 = s.des.done ∧
      x.getLsbD 2 = s.des.init ∧ x.getLsbD 3 = (s.des.errCode != 0) ∧ x.getLsbD 4 = s.des.ovr ∧
      x.getLsbD 5 = s.des.aerr ∧ ∀ n, 6 ≤ n → x.getLsbD n = false) ∧
    hostWrite 0x014 v s = .next { s with des := { s.des with
      done := s.des.done && !v.getLsbD 1, ovr := s.des.ovr && !v.getLsbD 4, aerr := s.des.aerr && !v.getLsbD 5 } }

/-- A read of a mapped register changes no part of the core, and with no command in flight a second read of any offset
returns the same value (R84). -/
def Obligations.ReadsHaveNoSideEffect : Prop :=
  ∀ (off : Offset) (s t : State) (v : Word), hostRead off s = .value v t →
    (Reg.ofOffset s.cfg.bufBlocks off ≠ none → t.des = s.des) ∧
    (s.des.busy = false → hostRead off t = .value v t)

/-- A write to an RO register changes nothing (R84). -/
def Obligations.ReadOnlyWritesAreIgnored : Prop :=
  ∀ (s : State) (off : Offset) (v : Word), s.rst = false →
    off ∈ [0x000, 0x004, 0x008, 0x00C, 0x018, 0x028, 0x02C, 0x038, 0x03C, 0x04C, 0x058] ∨
      (0x100 ≤ off.toNat ∧ off.toNat < 0x200 ∧ off.toNat % 4 = 0) →
    hostWrite off v s = .next s

/-- A host write to an RW register, out of reset and whether or not a command is in flight, sets the implemented bits of that
register and changes nothing else (R37, R41, R43, R45, R46, R48, R93); CTRL reads the written bit back at once in every
state, and with no command in flight each of the others, and every word of BUF, reads back its implemented bits
(`spec/10_state.md` section 2). -/
def Obligations.ReadWriteRegistersReadBack : Prop :=
  (∀ (s : State) (v : Word), s.rst = false →
    hostWrite 0x010 v s = .next { s with des := { s.des with ctrlIe := v.getLsbD 0 } } ∧
    hostWrite 0x020 v s = .next { s with des := { s.des with key := v ++ s.des.key.extractLsb' 0 32 } } ∧
    hostWrite 0x024 v s = .next { s with des := { s.des with key := s.des.key.extractLsb' 32 32 ++ v } } ∧
    hostWrite 0x030 v s = .next { s with des := { s.des with din := v ++ s.des.din.extractLsb' 0 32 } } ∧
    hostWrite 0x034 v s = .next { s with des := { s.des with din := s.des.din.extractLsb' 32 32 ++ v } } ∧
    hostWrite 0x040 v s = .next { s with des := { s.des with hin := v } } ∧
    hostWrite 0x044 v s = .next { s with des := { s.des with rkin := v ++ s.des.rkin.extractLsb' 0 16 } } ∧
    hostWrite 0x048 v s = .next { s with des := { s.des with
      rkin := s.des.rkin.extractLsb' 16 32 ++ v.extractLsb' 16 16 } } ∧
    hostWrite 0x050 v s = .next { s with des := { s.des with bufBase := v.extractLsb' 0 16 } } ∧
    hostWrite 0x054 v s = .next { s with des := { s.des with bufCnt := v.extractLsb' 0 16 } } ∧
    ∃ t, hostWrite 0x010 v s = .next t ∧ hostRead 0x010 t = .value (v &&& 1) t) ∧
  ∀ (s : State) (off : Offset) (mask v : Word), s.rst = false → s.des.busy = false → s.cfg.bufBlocks ≤ 4096 →
    (off, mask) ∈ [(0x020#16, 0xFFFFFFFF#32), (0x024#16, 0xFFFFFFFF#32), (0x030#16, 0xFFFFFFFF#32),
        (0x034#16, 0xFFFFFFFF#32), (0x040#16, 0xFFFFFFFF#32), (0x044#16, 0xFFFFFFFF#32), (0x048#16, 0xFFFF0000#32),
        (0x050#16, 0x0000FFFF#32), (0x054#16, 0x0000FFFF#32)] ∨
      (mask = 0xFFFFFFFF#32 ∧ off.toNat % 4 = 0 ∧ 0x8000 ≤ off.toNat ∧ off.toNat < 0x8000 + 8 * s.cfg.bufBlocks) →
    ∃ t, hostWrite off v s = .next t ∧ hostRead off t = .value (v &&& mask) t

/-- A host write of a BUF word, with no command in flight or with one that is not a buffer command over a range with that
block in it, stores its four bytes, byte 0 from [31:24], leaves every other byte of memory as it was, and changes nothing
else (R81, R86, R282). A buffer command is told by the OP of the latched word (log entries 6 and 7). -/
def Obligations.BufferWriteStoresOneWord : Prop :=
  ∀ (s : State) (off : Offset) (v : Word) (j : Nat), s.rst = false → j < s.cfg.bufBlocks →
    off.toNat = 0x8000 + 8 * j ∨ off.toNat = 0x8004 + 8 * j →
    (s.des.busy = false ∨ (s.des.latch.cmd &&& 0xFF#32 ≠ 6 ∧ s.des.latch.cmd &&& 0xFF#32 ≠ 7) ∨
      j < s.des.latch.base.toNat ∨ s.des.latch.base.toNat + s.des.latch.cnt.toNat ≤ j) →
    ∃ t, hostWrite off v s = .next t ∧
      (∀ k < 4, t.des.buf.read (off.toNat + k) = some (v.extractLsb' (24 - 8 * k) 8)) ∧
      (∀ a, a < off.toNat ∨ off.toNat + 4 ≤ a → t.des.buf.read a = s.des.buf.read a) ∧
      t = { s with des := { s.des with buf := t.des.buf } }

/-- A host read of a BUF word whose first byte was not written since reset is a fault of the program (R75). That it is the
fault also where the block is in the range of a buffer command in flight, and no free draw, is the model's choice (log
entry 5). -/
def Obligations.UnwrittenBufferReadFaults : Prop :=
  ∀ (s : State) (off : Offset), s.rst = false → off.toNat % 4 = 0 → 0x8000 ≤ off.toNat →
    off.toNat < 0x8000 + 8 * s.cfg.bufBlocks → s.des.buf.read off.toNat = none →
    hostRead off s = .stop .unwrittenBuffer

/-- While a command is in flight, a read of a register it may write returns the next free value, whatever that is, and changes
no part of the core, and a read of any other register is exact (R281). While a word that is no command is in flight the
same holds with the row of its OP, and with no row where OP is reserved (log entry 6). With nothing in flight every read
is exact, and STATUS, ERRCODE, CMD, CTRL, ID and CAP read exactly in every state. Exact is the value the register holds; a
BUF word not written since reset has none (log entry 5). The opaque value and the count of draws are the model's free value
(log entry 2). -/
def Obligations.BusyWindowReadsAreFree : Prop :=
  (∀ (s : State) (r : Reg) (v : Word), s.rst = false → s.cfg.bufBlocks ≤ 4096 → r.Exists s.cfg.bufBlocks →
    s.des.readReg s.cfg.bufBlocks r = some v →
    let free := hostRead r.portOffset s = .value (Config.freeWord s.draws) { s with draws := s.draws + 1 }
    let exact := hostRead r.portOffset s = .value v s
    (s.des.busy = false → exact) ∧
    (∀ i, s.des.busy = true → decode s.des.latch.cmd = .command i →
      (MayWrite s.des.latch r i → free) ∧ (¬ MayWrite s.des.latch r i → exact)) ∧
    (s.des.busy = true → decode s.des.latch.cmd = .illegal .reservedOp → exact) ∧
    (∀ i : Instr, s.des.busy = true → decode s.des.latch.cmd = .illegal .reservedBits →
      s.des.latch.cmd &&& 0xFF#32 = BitVec.ofNat 32 i.opcode →
      (MayWrite s.des.latch r i → free) ∧ (¬ MayWrite s.des.latch r i → exact))) ∧
  ∀ (s : State) (r : Reg), s.rst = false →
    r ∈ [.status, .errcode, .cmd, .ctrl, .id, .cap0, .cap1, .cap2] →
    ∃ v, s.des.readReg s.cfg.bufBlocks r = some v ∧ hostRead r.portOffset s = .value v s

/-- A host write to a BUF block inside the latched range while a word with OP 6 or 7 is in flight is a hazard fault of the
program; a write to a block outside the range takes effect (R282). That a word with a reserved bit set and a command that
will end in an error count as the buffer command is the model's choice (log entries 6 and 7). -/
def Obligations.WriteIntoTheRangeInFlightFaults : Prop :=
  ∀ (s : State) (off : Offset) (v : Word) (j : Nat), s.rst = false → s.des.busy = true →
    (s.des.latch.cmd &&& 0xFF#32 = 6 ∨ s.des.latch.cmd &&& 0xFF#32 = 7) → j < s.cfg.bufBlocks →
    off.toNat = 0x8000 + 8 * j ∨ off.toNat = 0x8004 + 8 * j →
    (s.des.latch.base.toNat ≤ j ∧ j < s.des.latch.base.toNat + s.des.latch.cnt.toNat →
      hostWrite off v s = .fault .bufferWriteHazard) ∧
    (j < s.des.latch.base.toNat ∨ s.des.latch.base.toNat + s.des.latch.cnt.toNat ≤ j →
      hostWrite off v s = .next { s with des := { s.des with buf := s.des.buf.writeWord off.toNat v } })

/-- R93: a host write to an operand register while a command is in flight changes that register at once, in its implemented
bits, and nothing but operand registers (which of them, and how, says `ReadWriteRegistersReadBack`): not the latch nor the
result of the command in flight; a ZEROIZE in flight clears KEY, DIN, HIN and RKIN all the same. -/
def Obligations.OperandWritesMissTheCommandInFlight : Prop :=
  ∀ (s t : State) (off : Offset) (mask v : Word) (i : Instr), s.rst = false → s.des.busy = true →
    (off, mask) ∈ [(0x020#16, 0xFFFFFFFF#32), (0x024#16, 0xFFFFFFFF#32), (0x030#16, 0xFFFFFFFF#32),
      (0x034#16, 0xFFFFFFFF#32), (0x040#16, 0xFFFFFFFF#32), (0x044#16, 0xFFFFFFFF#32), (0x048#16, 0xFFFF0000#32),
      (0x050#16, 0x0000FFFF#32), (0x054#16, 0x0000FFFF#32)] →
    hostWrite off v s = .next t →
    (∃ r, Reg.ofOffset s.cfg.bufBlocks off = some r ∧ t.des.readReg s.cfg.bufBlocks r = some (v &&& mask)) ∧
    t = { s with des := { s.des with
      key := t.des.key, din := t.des.din, hin := t.des.hin, rkin := t.des.rkin
      bufBase := t.des.bufBase, bufCnt := t.des.bufCnt } } ∧
    ∀ s', exec i s = .next s' → ∃ t', exec i t = .next t' ∧
      t'.des.rk = s'.des.rk ∧ t'.des.knorm = s'.des.knorm ∧ t'.des.init = s'.des.init ∧ t'.des.xrk = s'.des.xrk ∧
      t'.des.xrkn = s'.des.xrkn ∧ t'.des.dout = s'.des.dout ∧ t'.des.hout = s'.des.hout ∧ t'.des.buf = s'.des.buf ∧
      t'.des.errCode = s'.des.errCode ∧ t'.des.errInfo = s'.des.errInfo ∧
      (∀ k n, i = .zeroize k n → t'.des.key = 0 ∧ t'.des.din = 0 ∧ t'.des.hin = 0 ∧ t'.des.rkin = 0) ∧
      ((∀ k n, i ≠ .zeroize k n) →
        t'.des.key = t.des.key ∧ t'.des.din = t.des.din ∧ t'.des.hin = t.des.hin ∧ t'.des.rkin = t.des.rkin)

/-- R250: irq is CTRL.IE ∧ STATUS.DONE: it stands at IE after every completion, with an error or without, falls when a
command is accepted or DONE is cleared by a write of 1, and follows a write to CTRL at once. -/
def Obligations.IrqFollowsDoneAndEnable : Prop :=
  ∀ (s t : State) (v : Word), s.rst = false →
    s.des.irq = (s.des.ctrlIe && s.des.done) ∧
    (s.des.busy = true → engineTurn s = .next t → t.des.irq = s.des.ctrlIe) ∧
    (s.des.busy = false → hostWrite 0x01C v s = .next t → t.des.irq = false) ∧
    (v.getLsbD 1 = true → hostWrite 0x014 v s = .next t → t.des.irq = false) ∧
    (hostWrite 0x010 v s = .next t → t.des.irq = (v.getLsbD 0 && s.des.done))

/-- The operations of a host script (R118). `rd` records what the port returns; `wr` writes, whatever a read there would
give; `poll` records what it read and goes on when the value under the mask is the one given, else it stays the next
operation; where the read of `rd` or `poll` is a fault, so is the turn; with no operation left nothing happens. A step at
the host's turn is the host's turn from the state with the turn taken off the schedule. The script, the record of reads and
the schedule are the model's (log entries 3 and 10). -/
def Obligations.ScriptOperationsTakeTheirAccess : Prop :=
  ∀ (s : State) (off : Offset) (mask v : Word) (rest : List HostOp),
    (∀ x t, hostRead off s = .value x t →
      (s.script = .rd off :: rest → hostTurn s = .next { t with script := rest, reads := ⟨off, x⟩ :: s.reads }) ∧
      (s.script = .poll off mask v :: rest → hostTurn s = .next { t with
        script := if x &&& mask = v then rest else s.script, reads := ⟨off, x⟩ :: s.reads })) ∧
    (∀ f, hostRead off s = .stop f →
      (s.script = .rd off :: rest → hostTurn s = .fault f) ∧
      (s.script = .poll off mask v :: rest → hostTurn s = .fault f)) ∧
    (s.script = .wr off v :: rest → hostTurn s = hostWrite off v { s with script := rest }) ∧
    (s.script = [] → hostTurn s = .next s) ∧
    (s.cfg.masters ≤ 1 → s.turn = .host → step s = hostTurn { s with schedule := s.schedule.tail })

/-! ## Reset -/

/-- The machine after reset, for all parameters: idle, not initialized, every register reads its reset value, every word of
BUF is unwritten, and LATCH and irq are 0 (R75, R271). -/
def Obligations.ResetValues : Prop :=
  ∀ (c : Config) (off : Offset), c.bufBlocks ≤ 4096 →
    ((0x010 ≤ off.toNat ∧ off.toNat < 0x05C ∨ 0x100 ≤ off.toNat ∧ off.toNat < 0x200) → off.toNat % 4 = 0 →
      hostRead off (State.resetWith c) = .value 0 (State.resetWith c)) ∧
    (0x8000 ≤ off.toNat → off.toNat < 0x8000 + 8 * c.bufBlocks → off.toNat % 4 = 0 →
      hostRead off (State.resetWith c) = .stop .unwrittenBuffer) ∧
    (State.resetWith c).des.latch = { cmd := 0, key := 0, din := 0, hin := 0, rkin := 0, base := 0, cnt := 0 } ∧
    (State.resetWith c).des.irq = false

/-- R270: asserting `rst` sets every component of the core to its reset value, whatever is in flight; releasing it clears
`rst` and leaves the core, the script and the record of reads as they were; while it is asserted a read returns 0, a write
is ignored, neither sets AERR, and the engine does nothing; and nothing but a host access, a completion or the assertion of
`rst` changes the core. Who moves, and that the release is a turn, is the model's schedule (log entries 3 and 11). -/
def Obligations.AssertedResetHoldsTheCore : Prop :=
  (∀ s : State, s.cfg.masters ≤ 1 →
    (s.turn = .rstAssert →
      step s = .next { s with des := DesCore.reset, rst := true, schedule := s.schedule.tail }) ∧
    (s.turn = .rstRelease → step s = .next { s with rst := false, schedule := s.schedule.tail })) ∧
  (∀ (s : State) (off : Offset) (v : Word), s.rst = true →
    hostRead off s = .value 0 s ∧ hostWrite off v s = .next s ∧ engineTurn s = .next s) ∧
  ∀ s t : State, step s = .next t → t.des ≠ s.des →
    s.turn = .rstAssert ∨ (s.turn = .host ∧ s.script ≠ []) ∨ (s.turn = .engine ∧ s.des.busy = true)

/-! ## Whole machine -/

/-- R191, with its like for XRK and INIT (R60, R61, R74): a step changes RK, INIT or KNORM only if it completes a KEY_INIT or
a ZEROIZE without error or asserts `rst`, and XRK or XRKN only if it completes a KEY_EXPAND or a ZEROIZE without error or
asserts `rst`. -/
def Obligations.OnlyKeyCommandsChangeTheBanks : Prop :=
  ∀ s t : State, step s = .next t →
    (t.des.rk ≠ s.des.rk ∨ t.des.init ≠ s.des.init ∨ t.des.knorm ≠ s.des.knorm →
      s.turn = .rstAssert ∨ (s.turn = .engine ∧ s.des.busy = true ∧ t.des.errCode = 0 ∧
        ∃ k n, decode s.des.latch.cmd = .command (.keyInit k n) ∨ decode s.des.latch.cmd = .command (.zeroize k n))) ∧
    (t.des.xrk ≠ s.des.xrk ∨ t.des.xrkn ≠ s.des.xrkn →
      s.turn = .rstAssert ∨ (s.turn = .engine ∧ s.des.busy = true ∧ t.des.errCode = 0 ∧
        ∃ k n, decode s.des.latch.cmd = .command (.keyExpand k n) ∨ decode s.des.latch.cmd = .command (.zeroize k n)))

/-- The invariant of `Safety.lean` holds after every step from every state that meets it: the memory stays canonical and
inside BUF, its words are written whole, the error fields stay in the table of R241, XRKN stays at most 16 with zeros above
it, INIT says that RK is the schedule of a key of odd parity and its absence that no key is left, and a core in reset stays
reset. -/
def Obligations.StepKeepsTheInvariant : Prop := ∀ s t : State, s.Inv → step s = .next t → t.Inv

/-- The machine after reset meets the invariant, for all parameters. -/
def Obligations.ResetMeetsTheInvariant : Prop := ∀ c : Config, (State.resetWith c).Inv

/-- A command in flight completes: within as many steps as the schedule has turns and one more, BUSY falls or the program
meets a fault, as long as `rst` is not touched (R72). The bound is that of the model's schedule (log entry 3). -/
def Obligations.CommandInFlightCompletes : Prop :=
  ∀ s : State, s.cfg.masters ≤ 1 → s.rst = false → s.des.busy = true →
    (∀ t ∈ s.schedule, t = .host ∨ t = .engine) →
    ∃ k, k ≤ s.schedule.length + 1 ∧
      ((∃ t, Sys2Proof.core.run k s = .next t ∧ t.des.busy = false) ∨ ∃ f, Sys2Proof.core.run k s = .fault f)

/-- No rule reads LATCH while BUSY = 0 (R70): with another latch the next step does the same, and if it accepts a command the
latch is then the same too. -/
def Obligations.IdleLatchIsNeverRead : Prop :=
  ∀ (s : State) (l : Latch), s.des.busy = false →
    (∀ t, step s = .next t → ∃ l', step { s with des := { s.des with latch := l } } = .next { t with des := { t.des with latch := l' } } ∧
      (t.des.busy = true → l' = t.des.latch)) ∧
    (∀ f, step s = .fault f → step { s with des := { s.des with latch := l } } = .fault f)

/-- After a ZEROIZE nothing the host reads, in any number of steps, depends on the key material before it: two machines that
differ only in KEY, KNORM, DIN, DOUT, HIN, RKIN, HOUT, RK, XRK, XRKN, INIT and the latched operands return the same values
(R196, R273). A read in the BUSY window draws the same free value in both machines: that two draws agree is the model's
(log entry 2). -/
def Obligations.ZeroizeLeavesNothingToRead : Prop :=
  ∀ (s s' t t' u : State) (k n steps : Nat),
    s' = { s with des := { s.des with
      key := s'.des.key, knorm := s'.des.knorm, din := s'.des.din, dout := s'.des.dout, hin := s'.des.hin
      rkin := s'.des.rkin, hout := s'.des.hout, rk := s'.des.rk, xrk := s'.des.xrk, xrkn := s'.des.xrkn
      init := s'.des.init, latch := s'.des.latch } } →
    exec (.zeroize k n) s = .next t → exec (.zeroize k n) s' = .next t' →
    Sys2Proof.core.run steps t = .next u → ∃ u', Sys2Proof.core.run steps t' = .next u' ∧ u'.reads = u.reads
end

