-- ==== Sys2Proof/Laws/Decode.lean ====
section
/-! SUPPORT. The fields of a command word: of a word laid out, of a word put together again from its fields, and the masks
of `spec/30_encoding.md` R116 in terms of the fields. -/

namespace Sys2Proof

/-- A bit of a word laid out (R110). -/
theorem layout_getLsbD (op : BitVec 8) (klen : BitVec 4) (nrk : BitVec 5) (n : Nat) :
    (layout op klen nrk).getLsbD n =
      if n < 8 then op.getLsbD n else if n < 12 then klen.getLsbD (n - 8) else if n < 16 then false
      else if n < 21 then nrk.getLsbD (n - 16) else false := by
  show BitVec.getLsbD (w := 11 + 5 + 4 + 4 + 8) (0#11 ++ nrk ++ 0#4 ++ klen ++ op) n = _
  rw [BitVec.getLsbD_append, BitVec.getLsbD_append, BitVec.getLsbD_append, BitVec.getLsbD_append]
  by_cases h1 : n < 8
  · simp [h1]
  · by_cases h2 : n < 12
    · simp [h1, h2, show n - 8 < 4 by omega]
    · have e : n - 8 - 4 = n - 12 := by omega
      by_cases h3 : n < 16
      · simp [h1, h2, h3, show ¬ (n - 8 < 4) by omega, e, show n - 12 < 4 by omega]
      · have e' : n - 12 - 4 = n - 16 := by omega
        by_cases h4 : n < 21
        · simp [h1, h2, h3, h4, show ¬ (n - 8 < 4) by omega, e, show ¬ (n - 12 < 4) by omega, e', show n - 16 < 5 by omega]
        · simp [h1, h2, h3, h4, show ¬ (n - 8 < 4) by omega, e, show ¬ (n - 12 < 4) by omega, e', show ¬ (n - 16 < 5) by omega]

@[simp] theorem opField_layout (op : BitVec 8) (klen : BitVec 4) (nrk : BitVec 5) : opField (layout op klen nrk) = op := by
  apply BitVec.eq_of_getLsbD_eq
  intro i hi
  simp [opField, layout_getLsbD, hi]

@[simp] theorem klenField_layout (op : BitVec 8) (klen : BitVec 4) (nrk : BitVec 5) :
    klenField (layout op klen nrk) = klen := by
  apply BitVec.eq_of_getLsbD_eq
  intro i hi
  simp [klenField, layout_getLsbD, hi, show 8 + i < 12 by omega]

@[simp] theorem reservedLow_layout (op : BitVec 8) (klen : BitVec 4) (nrk : BitVec 5) :
    reservedLow (layout op klen nrk) = 0 := by
  apply BitVec.eq_of_getLsbD_eq
  intro i hi
  simp (disch := omega) only [reservedLow, BitVec.getLsbD_extractLsb', layout_getLsbD, if_neg, if_pos]
  simp

@[simp] theorem nrkField_layout (op : BitVec 8) (klen : BitVec 4) (nrk : BitVec 5) :
    nrkField (layout op klen nrk) = nrk := by
  apply BitVec.eq_of_getLsbD_eq
  intro i hi
  simp [nrkField, layout_getLsbD, hi, show ¬ (16 + i < 8) by omega, show ¬ (16 + i < 12) by omega,
    show 16 + i < 21 by omega]

@[simp] theorem reservedHigh_layout (op : BitVec 8) (klen : BitVec 4) (nrk : BitVec 5) :
    reservedHigh (layout op klen nrk) = 0 := by
  apply BitVec.eq_of_getLsbD_eq
  intro i hi
  simp (disch := omega) only [reservedHigh, BitVec.getLsbD_extractLsb', layout_getLsbD, if_neg]
  simp

/-- A word with no reserved bit set is laid out from its own fields (R110). -/
theorem layout_fields (w : Word) (hh : reservedHigh w = 0) (hl : reservedLow w = 0) :
    layout (opField w) (klenField w) (nrkField w) = w := by
  have h21 : ∀ i < 11, w.getLsbD (21 + i) = false := fun i hi => by
    simpa [reservedHigh, hi] using congrArg (BitVec.getLsbD · i) hh
  have h12 : ∀ i < 4, w.getLsbD (12 + i) = false := fun i hi => by
    simpa [reservedLow, hi] using congrArg (BitVec.getLsbD · i) hl
  apply BitVec.eq_of_getLsbD_eq
  intro i hi
  rw [layout_getLsbD]
  by_cases h1 : i < 8
  · simp [opField, h1]
  · by_cases h2 : i < 12
    · simp [klenField, h1, h2, show i - 8 < 4 by omega, show 8 + (i - 8) = i by omega]
    · by_cases h3 : i < 16
      · have e := h12 (i - 12) (by omega)
        rw [show 12 + (i - 12) = i by omega] at e
        simp [h1, h2, h3, e]
      · by_cases h4 : i < 21
        · simp [nrkField, h1, h2, h3, h4, show i - 16 < 5 by omega, show 16 + (i - 16) = i by omega]
        · have e := h21 (i - 21) (by omega)
          rw [show 21 + (i - 21) = i by omega] at e
          simp [h1, h2, h3, h4, e]

/-- The reserved bits are clear exactly when the word is 0 under their mask (R115). -/
theorem reserved_clear_iff (w : Word) : w &&& 0xFFE0F000#32 = 0 ↔ reservedHigh w = 0 ∧ reservedLow w = 0 := by
  constructor
  · intro h
    have hb : ∀ i, (w &&& 0xFFE0F000#32).getLsbD i = false := fun i => by rw [h]; simp
    have hm : ∀ i, i < 32 → (12 ≤ i ∧ i < 16 ∨ 21 ≤ i) → (0xFFE0F000#32).getLsbD i = true := by decide
    constructor <;> apply BitVec.eq_of_getLsbD_eq <;> intro i hi
    · have e := hb (21 + i)
      rw [BitVec.getLsbD_and, hm (21 + i) (by omega) (by omega)] at e
      simpa [reservedHigh, hi] using e
    · have e := hb (12 + i)
      rw [BitVec.getLsbD_and, hm (12 + i) (by omega) (by omega)] at e
      simpa [reservedLow, hi] using e
  · rintro ⟨hh, hl⟩
    rw [← layout_fields w hh hl]
    have hm : ∀ i, i < 32 → ¬(12 ≤ i ∧ i < 16 ∨ 21 ≤ i) → (0xFFE0F000#32).getLsbD i = false := by decide
    apply BitVec.eq_of_getLsbD_eq
    intro i hi
    rw [BitVec.getLsbD_and]
    by_cases h : 12 ≤ i ∧ i < 16 ∨ 21 ≤ i
    · rw [layout_getLsbD, if_neg (by omega), if_neg (by omega)]
      by_cases h3 : i < 16
      · simp [h3]
      · simp [h3, show ¬ (i < 21) by omega]
    · simp [hm i hi h]

/-- Under the mask of R116 a word laid out shows its operation code alone. -/
theorem layout_mask (op : BitVec 8) (klen : BitVec 4) (nrk : BitVec 5) :
    layout op klen nrk &&& 0xFFE0F0FF#32 = op.setWidth 32 := by
  have hm : ∀ i, i < 8 → (0xFFE0F0FF#32).getLsbD i = true := by decide
  have hz : ∀ i, i < 32 → (8 ≤ i ∧ i < 12 ∨ 16 ≤ i ∧ i < 21) → (0xFFE0F0FF#32).getLsbD i = false := by decide
  apply BitVec.eq_of_getLsbD_eq
  intro i hi
  rw [BitVec.getLsbD_and, BitVec.getLsbD_setWidth, layout_getLsbD]
  by_cases h1 : i < 8
  · simp [h1, hi, hm i h1]
  · rw [BitVec.getLsbD_of_ge op i (by omega)]
    by_cases h2 : 8 ≤ i ∧ i < 12 ∨ 16 ≤ i ∧ i < 21
    · simp [hz i hi h2]
    · by_cases h3 : i < 16
      · simp [h1, h3, show ¬ (i < 12) by omega]
      · simp [h1, h3, show ¬ (i < 12) by omega, show ¬ (i < 21) by omega]

/-- The operation code as a number (R110). -/
theorem opField_toNat (w : Word) : (opField w).toNat = w.toNat % 0x100 := by simp [opField]

/-- KLEN as a number (R110). -/
theorem klenField_toNat (w : Word) : (klenField w).toNat = w.toNat / 0x100 % 0x10 := by
  simp [klenField, Nat.shiftRight_eq_div_pow]

/-- NRK as a number (R110). -/
theorem nrkField_toNat (w : Word) : (nrkField w).toNat = w.toNat / 0x10000 % 0x20 := by
  simp [nrkField, Nat.shiftRight_eq_div_pow]

/-- The operation code as the word under its mask (R115). -/
theorem mask_op_toNat (w : Word) : (w &&& 0xFF#32).toNat = (opField w).toNat := by
  have h : w.toNat &&& 255 = w.toNat % 2 ^ 8 := Nat.and_two_pow_sub_one_eq_mod w.toNat 8
  simpa [opField] using h

/-- The fields of the word of a well-formed command. -/
theorem encode_fields (i : Instr) :
    opField (encode i) = BitVec.ofNat 8 i.opcode ∧ klenField (encode i) = BitVec.ofNat 4 i.klen ∧
    nrkField (encode i) = BitVec.ofNat 5 i.nrk ∧ reservedHigh (encode i) = 0 ∧ reservedLow (encode i) = 0 := by
  simp [encode]

/-- The operation codes are 1 to 8 (R111). -/
theorem opcode_range (i : Instr) : 1 ≤ i.opcode ∧ i.opcode ≤ 8 := by cases i <;> simp [Instr.opcode]

/-- What the table of R111 answers. -/
theorem commandOf_eq_some {op klen nrk : Nat} {i : Instr} (h : commandOf op klen nrk = some i) :
    i.opcode = op ∧ i.klen = klen ∧ i.nrk = nrk := by
  unfold commandOf at h
  split at h <;> first | (injection h with h; subst h; exact ⟨rfl, rfl, rfl⟩) | cases h

/-- The table of R111 answers exactly on 1 to 8. -/
theorem commandOf_eq_none_iff {op klen nrk : Nat} : commandOf op klen nrk = none ↔ op < 1 ∨ 8 < op := by
  constructor
  · intro h
    refine Decidable.byContradiction fun hc => ?_
    have hop : op = 1 ∨ op = 2 ∨ op = 3 ∨ op = 4 ∨ op = 5 ∨ op = 6 ∨ op = 7 ∨ op = 8 := by omega
    rcases hop with rfl | rfl | rfl | rfl | rfl | rfl | rfl | rfl <;> cases h
  · intro h
    unfold commandOf
    split <;> first | omega | rfl

/-- The two ways decoding a word ends in a command or not (R114). -/
theorem decode_command_iff (w : Word) (i : Instr) :
    decode w = .command i ↔
      commandOf (opField w).toNat (klenField w).toNat (nrkField w).toNat = some i ∧ reservedHigh w = 0 ∧
        reservedLow w = 0 := by
  unfold decode
  cases commandOf (opField w).toNat (klenField w).toNat (nrkField w).toNat with
  | none => simp
  | some j =>
    by_cases h : reservedHigh w ≠ 0 ∨ reservedLow w ≠ 0
    · simp only [if_pos h]
      simp
      intro _ hh hl
      simp [hh, hl] at h
    · simp only [if_neg h]
      simp at h
      simp [h]

end Sys2Proof
end

