-- ==== Sys2Proof/Laws/Des.lean ====
section
/-! SUPPORT. Small facts about the DES functions: the bits of a permutation, the S-box rows, the rounds as a fold. -/

namespace Sys2Proof.Machine

/-- One more entry at the end of a table shifts the bits up and puts the new bit at the bottom (R141). -/
theorem permute_snoc {m : Nat} (n : Nat) (t : List Nat) (j : Nat) (v : BitVec m) :
    permute n (t ++ [j]) v = (permute n t v <<< 1) ||| (BitVec.ofBool (v.getLsbD (m - j))).setWidth n := by
  simp [permute]

/-- Bit `k` of a permutation whose table is written backwards, counted from the least significant end (R141). -/
theorem permute_reverse_getLsbD {m : Nat} (n : Nat) (l : List Nat) (v : BitVec m) (k : Nat) (hk : k < n) :
    (permute n l.reverse v).getLsbD k = (k < l.length && v.getLsbD (m - l.getD k 0)) := by
  induction l generalizing k with
  | nil => simp [permute]
  | cons j l ih =>
    rw [List.reverse_cons, permute_snoc, BitVec.getLsbD_or, BitVec.getLsbD_shiftLeft]
    cases k with
    | zero => simp [hk]
    | succ k => simp [hk, ih k (by omega)]

/-- Bit `k` of a permutation, counted from the least significant end, is the input bit that the table's entry `k` from its
end names (R141). -/
theorem permute_getLsbD {m : Nat} (n : Nat) (t : List Nat) (v : BitVec m) (k : Nat) (hk : k < n) :
    (permute n t v).getLsbD k = (k < t.length && v.getLsbD (m - t.reverse.getD k 0)) := by
  simpa using permute_reverse_getLsbD n t.reverse v k hk

/-- Every row of every S-box lists the values 0 to 15 (R156). -/
theorem sBox_rows_permute :
    ∀ t ∈ [s1, s2, s3, s4, s5, s6, s7, s8], t.length = 4 ∧ ∀ row ∈ t, row.length = 16 ∧ ∀ x < 16, x ∈ row := by
  decide +kernel

/-- Every table has its length and its entries in range (R141). -/
theorem tables_in_range :
    (ipTable.length = 64 ∧ ∀ x ∈ ipTable, 1 ≤ x ∧ x ≤ 64) ∧ (ipInvTable.length = 64 ∧ ∀ x ∈ ipInvTable, 1 ≤ x ∧ x ≤ 64) ∧
    (eTable.length = 48 ∧ ∀ x ∈ eTable, 1 ≤ x ∧ x ≤ 32) ∧ (pTable.length = 32 ∧ ∀ x ∈ pTable, 1 ≤ x ∧ x ≤ 32) ∧
    (pc1Table.length = 56 ∧ ∀ x ∈ pc1Table, 1 ≤ x ∧ x ≤ 64) ∧ (pc2Table.length = 48 ∧ ∀ x ∈ pc2Table, 1 ≤ x ∧ x ≤ 56) := by
  decide +kernel

@[simp] theorem feistelRounds_nil (lr : Word × Word) : feistelRounds [] lr = lr := rfl

@[simp] theorem feistelRounds_cons (k : RoundKey) (ks : List RoundKey) (lr : Word × Word) :
    feistelRounds (k :: ks) lr = feistelRounds ks (feistelRound lr k) := rfl

/-- Rounds under two key lists in a row. -/
theorem feistelRounds_append (ks ls : List RoundKey) (lr : Word × Word) :
    feistelRounds (ks ++ ls) lr = feistelRounds ls (feistelRounds ks lr) := by
  simp [feistelRounds]

/-- The keys of a schedule as the loop of R162 makes them. -/
theorem keySchedule_toList (kn : Block) : (keySchedule kn).toList = scheduleFrom shifts (halfC kn) (halfD kn) := by
  simp [keySchedule, Vector.toList]

/-- The upper part of two vectors put together. -/
theorem extract_append_left {m n : Nat} (a : BitVec m) (b : BitVec n) : (a ++ b).extractLsb' n m = a := by
  apply BitVec.eq_of_getLsbD_eq
  intro i hi
  simp [BitVec.getLsbD_append, hi]

/-- The lower part of two vectors put together. -/
theorem extract_append_right {m n : Nat} (a : BitVec m) (b : BitVec n) : (a ++ b).extractLsb' 0 n = b := by
  apply BitVec.eq_of_getLsbD_eq
  intro i hi
  simp [BitVec.getLsbD_append, hi]

@[simp] theorem hi64_append (a b : Word) : hi64 (a ++ b) = a := extract_append_left a b

@[simp] theorem lo64_append (a b : Word) : lo64 (a ++ b) = b := extract_append_right a b

end Sys2Proof.Machine
end

