-- ==== Sys2Proof/Laws/Memory.lean ====
section
/-! SUPPORT. The laws of BUF as a list of bytes: read after write, canonical form, words, blocks, and the loop of a buffer
command. -/

namespace Sys2Proof.Machine

namespace Memory

@[simp] theorem read_nil (a : Nat) : read [] a = none := rfl

theorem read_cons (k : Nat) (b : Byte) (m : Memory) (a : Nat) :
    read ((k, b) :: m) a = if k = a then some b else read m a := rfl

theorem write_cons (k : Nat) (b : Byte) (m : Memory) (a : Nat) (v : Byte) :
    write ((k, b) :: m) a v =
      if a < k then (a, v) :: (k, b) :: m else if a = k then (a, v) :: m else (k, b) :: write m a v := rfl

/-- Read after write, at the place written. -/
@[simp] theorem read_write_same (m : Memory) (a : Nat) (v : Byte) : (m.write a v).read a = some v := by
  induction m with
  | nil => simp [write, read_cons]
  | cons c m ih =>
    obtain ⟨k, b⟩ := c
    rw [write_cons]
    split
    · simp [read_cons]
    · split
      · simp [read_cons]
      · rename_i h1 h2
        rw [read_cons, if_neg (fun h => h2 h.symm), ih]

/-- Read after write, at every other place. -/
theorem read_write_other (m : Memory) {a x : Nat} (v : Byte) (h : x ≠ a) : (m.write a v).read x = m.read x := by
  induction m with
  | nil => simp [write, read_cons, Ne.symm h]
  | cons c m ih =>
    obtain ⟨k, b⟩ := c
    rw [write_cons]
    split
    · simp [read_cons, Ne.symm h]
    · split
      · rename_i h1 h2
        subst h2
        simp [read_cons, Ne.symm h]
      · simp [read_cons, ih]

/-- One equation for read after write. -/
theorem read_write (m : Memory) (a x : Nat) (v : Byte) :
    (m.write a v).read x = if x = a then some v else m.read x := by
  split
  · rename_i h
    subst h
    simp
  · rename_i h
    exact read_write_other m v h

/-- The addresses a write leaves listed: the old ones and the one written. -/
theorem mem_write (m : Memory) (a : Nat) (v : Byte) {c : Host.Cell} (h : c ∈ m.write a v) : c.1 = a ∨ c ∈ m := by
  induction m with
  | nil => simp [write] at h; simp [h]
  | cons d m ih =>
    obtain ⟨k, b⟩ := d
    rw [write_cons] at h
    split at h
    · simp at h ⊢
      rcases h with h | h | h <;> simp [h]
    · split at h
      · simp at h ⊢
        rcases h with h | h <;> simp [h]
      · simp at h ⊢
        rcases h with h | h
        · simp [h]
        · rcases ih h with h | h <;> simp [h]

/-- A write keeps the canonical form. -/
theorem write_wf (m : Memory) (a : Nat) (v : Byte) (h : m.wf) : (m.write a v).wf := by
  induction m with
  | nil => simp [write, wf]
  | cons c m ih =>
    obtain ⟨k, b⟩ := c
    have hk : ∀ x ∈ m, k < x.1 := (List.pairwise_cons.mp h).1
    have hm : wf m := (List.pairwise_cons.mp h).2
    rw [write_cons]
    split
    · rename_i hlt
      refine List.pairwise_cons.mpr ⟨?_, h⟩
      intro x hx
      rcases List.mem_cons.mp hx with hx | hx
      · subst hx; exact hlt
      · exact Nat.lt_trans hlt (hk x hx)
    · split
      · rename_i h2
        subst h2
        exact List.pairwise_cons.mpr ⟨hk, hm⟩
      · refine List.pairwise_cons.mpr ⟨?_, ih hm⟩
        intro x hx
        rcases mem_write m a v hx with hx | hx
        · simp only [hx]; omega
        · exact hk x hx

/-- A listed byte is what its address reads as, and only listed addresses have a value. -/
theorem read_eq_some_iff (m : Memory) (h : m.wf) (a : Nat) (v : Byte) : m.read a = some v ↔ (a, v) ∈ m := by
  induction m with
  | nil => simp
  | cons c m ih =>
    obtain ⟨k, b⟩ := c
    have hk : ∀ x ∈ m, k < x.1 := (List.pairwise_cons.mp h).1
    rw [read_cons, List.mem_cons]
    split
    · rename_i e
      subst e
      constructor
      · intro e
        injection e with e
        exact .inl (by rw [e])
      · rintro (e | e)
        · injection e with _ e
          rw [e]
        · exact absurd (hk _ e) (Nat.lt_irrefl _)
    · rename_i e
      rw [ih (List.pairwise_cons.mp h).2]
      constructor
      · exact .inr
      · rintro (e' | e')
        · injection e' with e' _
          exact absurd e'.symm e
        · exact e'

/-- Equal reads make equal memories, as the form is canonical. -/
theorem ext_of_read {m n : Memory} (hm : m.wf) (hn : n.wf) (h : ∀ a, m.read a = n.read a) : m = n := by
  have hp : ∀ c : Host.Cell, c ∈ m ↔ c ∈ n := by
    rintro ⟨a, v⟩
    rw [← read_eq_some_iff m hm, ← read_eq_some_iff n hn, h]
  induction m generalizing n with
  | nil =>
    cases n with
    | nil => rfl
    | cons c n => exact absurd ((hp c).mpr (by simp)) (by simp)
  | cons c m ih =>
    cases n with
    | nil => exact absurd ((hp c).mp (by simp)) (by simp)
    | cons d n =>
      have hcm := (List.pairwise_cons.mp hm).1
      have hdn := (List.pairwise_cons.mp hn).1
      have hcd : c = d := by
        rcases List.mem_cons.mp ((hp c).mp (by simp)) with e | e
        · exact e
        · rcases List.mem_cons.mp ((hp d).mpr (by simp)) with e' | e'
          · exact e'.symm
          · exact absurd (hdn _ e) (Nat.lt_asymm (hcm _ e'))
      subst hcd
      have hrest : ∀ x : Host.Cell, x ∈ m ↔ x ∈ n := by
        intro x
        have hx := hp x
        simp only [List.mem_cons] at hx
        constructor
        · intro e
          rcases hx.mp (.inr e) with e' | e'
          · subst e'; exact absurd (hcm _ e) (Nat.lt_irrefl _)
          · exact e'
        · intro e
          rcases hx.mpr (.inr e) with e' | e'
          · subst e'; exact absurd (hdn _ e) (Nat.lt_irrefl _)
          · exact e'
      have hm' := (List.pairwise_cons.mp hm).2
      have hn' := (List.pairwise_cons.mp hn).2
      congr 1
      refine ih hm' hn' ?_ hrest
      intro a
      apply Option.ext
      intro v
      rw [read_eq_some_iff m hm', read_eq_some_iff n hn', hrest]

/-! ### Words -/

/-- The bytes a word store leaves. -/
theorem read_writeWord (m : Memory) (a x : Nat) (v : Word) :
    (m.writeWord a v).read x =
      if x = a + 3 then some (v.extractLsb' 0 8) else if x = a + 2 then some (v.extractLsb' 8 8)
      else if x = a + 1 then some (v.extractLsb' 16 8) else if x = a then some (v.extractLsb' 24 8) else m.read x := by
  simp only [writeWord, read_write]

/-- A word store leaves every byte outside its four alone (R86). -/
theorem read_writeWord_other (m : Memory) {a x : Nat} (v : Word) (h : x < a ∨ a + 4 ≤ x) :
    (m.writeWord a v).read x = m.read x := by
  simp (disch := omega) only [read_writeWord, if_neg]

theorem writeWord_wf (m : Memory) (a : Nat) (v : Word) (h : m.wf) : (m.writeWord a v).wf :=
  write_wf _ _ _ (write_wf _ _ _ (write_wf _ _ _ (write_wf _ _ _ h)))

/-- The four bytes of a word, put together again. -/
theorem bytes_join (v : Word) :
    v.extractLsb' 24 8 ++ v.extractLsb' 16 8 ++ v.extractLsb' 8 8 ++ v.extractLsb' 0 8 = v := by
  rw [BitVec.extractLsb'_append_extractLsb'_eq_extractLsb' (by decide),
    BitVec.extractLsb'_append_extractLsb'_eq_extractLsb' (by decide),
    BitVec.extractLsb'_append_extractLsb'_eq_extractLsb' (by decide)]
  simp

/-- Word read after word write, at the same offset. -/
@[simp] theorem readWord_writeWord_same (m : Memory) (a : Nat) (v : Word) : (m.writeWord a v).readWord a = some v := by
  simp [readWord, read_writeWord, bytes_join]

/-- Word read after word write, where the two do not overlap. -/
theorem readWord_writeWord_other (m : Memory) {a x : Nat} (v : Word) (h : x + 4 ≤ a ∨ a + 4 ≤ x) :
    (m.writeWord a v).readWord x = m.readWord x := by
  have e : ∀ y, x ≤ y → y < x + 4 → (m.writeWord a v).read y = m.read y := fun y h1 h2 =>
    read_writeWord_other m v (by omega)
  simp only [readWord, e x (by omega) (by omega), e (x + 1) (by omega) (by omega), e (x + 2) (by omega) (by omega),
    e (x + 3) (by omega) (by omega)]

/-- A bit of four bytes put together, byte 0 most significant. -/
theorem getLsbD_bytes (b0 b1 b2 b3 : Byte) (i : Nat) :
    (show Word from b0 ++ b1 ++ b2 ++ b3).getLsbD i =
      if i < 8 then b3.getLsbD i else if i < 16 then b2.getLsbD (i - 8) else if i < 24 then b1.getLsbD (i - 16)
      else b0.getLsbD (i - 24) := by
  show BitVec.getLsbD (w := 8 + 8 + 8 + 8) (b0 ++ b1 ++ b2 ++ b3) i = _
  rw [BitVec.getLsbD_append, BitVec.getLsbD_append, BitVec.getLsbD_append]
  by_cases h1 : i < 8
  · simp [h1]
  · by_cases h2 : i < 16
    · simp [h1, h2, show i - 8 < 8 by omega]
    · have e : i - 8 - 8 = i - 16 := by omega
      by_cases h3 : i < 24
      · simp [h1, h2, h3, show ¬ (i - 8 < 8) by omega, e, show i - 16 < 8 by omega]
      · simp [h1, h2, h3, show ¬ (i - 8 < 8) by omega, e, show ¬ (i - 16 < 8) by omega, show i - 16 - 8 = i - 24 by omega]

/-- The bytes of a word put together from four. -/
theorem bytes_split (b0 b1 b2 b3 : Byte) :
    (b0 ++ b1 ++ b2 ++ b3).extractLsb' 24 8 = b0 ∧ (b0 ++ b1 ++ b2 ++ b3).extractLsb' 16 8 = b1 ∧
    (b0 ++ b1 ++ b2 ++ b3).extractLsb' 8 8 = b2 ∧ (b0 ++ b1 ++ b2 ++ b3).extractLsb' 0 8 = b3 := by
  refine ⟨?_, ?_, ?_, ?_⟩ <;> apply BitVec.eq_of_getLsbD_eq <;> intro i hi <;> rw [BitVec.getLsbD_extractLsb'] <;>
    simp only [hi, decide_true, Bool.true_and] <;> refine (getLsbD_bytes b0 b1 b2 b3 _).trans ?_
  · simp (disch := omega) [if_neg]
  · simp (disch := omega) [if_neg, if_pos]
  · simp (disch := omega) [if_neg, if_pos]
  · rw [if_pos (by omega)]; simp

/-- The bytes of a word that reads. -/
theorem read_of_readWord {m : Memory} {a : Nat} {w : Word} (h : m.readWord a = some w) :
    m.read a = some (w.extractLsb' 24 8) ∧ m.read (a + 1) = some (w.extractLsb' 16 8) ∧
    m.read (a + 2) = some (w.extractLsb' 8 8) ∧ m.read (a + 3) = some (w.extractLsb' 0 8) := by
  unfold readWord at h
  split at h
  · rename_i b0 b1 b2 b3 h0 h1 h2 h3
    injection h with h
    subst h
    obtain ⟨e0, e1, e2, e3⟩ := bytes_split b0 b1 b2 b3
    exact ⟨by rw [h0, e0], by rw [h1, e1], by rw [h2, e2], by rw [h3, e3]⟩
  · cases h

/-! ### Blocks (R88) -/

theorem bufHiAt_eq (j : Nat) : bufHiAt j = 0x8000 + 8 * j := rfl

theorem bufLoAt_eq (j : Nat) : bufLoAt j = 0x8004 + 8 * j := rfl

/-- The two words of a block, put together again. -/
@[simp] theorem halves_join (x : Block) : hi64 x ++ lo64 x = x := by
  unfold hi64 lo64
  rw [BitVec.extractLsb'_append_extractLsb'_eq_extractLsb' (by decide)]
  simp

/-- Block read after block write, at the same index. -/
@[simp] theorem bufRead_bufWrite_same (m : Memory) (j : Nat) (v : Block) : (m.bufWrite j v).bufRead j = some v := by
  have h : ((m.writeWord (bufHiAt j) (hi64 v)).writeWord (bufLoAt j) (lo64 v)).readWord (bufHiAt j) = some (hi64 v) := by
    rw [readWord_writeWord_other _ _ (by rw [bufHiAt_eq, bufLoAt_eq]; omega), readWord_writeWord_same]
  simp [bufRead, bufWrite, h]

/-- A block write leaves every byte outside its eight alone. -/
theorem read_bufWrite_other (m : Memory) {j x : Nat} (v : Block) (h : x < 0x8000 + 8 * j ∨ 0x8008 + 8 * j ≤ x) :
    (m.bufWrite j v).read x = m.read x := by
  rw [bufWrite, read_writeWord_other _ _ (by rw [bufLoAt_eq]; omega), read_writeWord_other _ _ (by rw [bufHiAt_eq]; omega)]

/-- Memories that agree on the bytes of a word read the same word. -/
theorem readWord_congr {m n : Memory} {a : Nat} (h : ∀ x, a ≤ x → x < a + 4 → m.read x = n.read x) :
    m.readWord a = n.readWord a := by
  simp only [readWord, h a (by omega) (by omega), h (a + 1) (by omega) (by omega), h (a + 2) (by omega) (by omega),
    h (a + 3) (by omega) (by omega)]

/-- Memories that agree on the bytes of a block read the same block. -/
theorem bufRead_congr {m n : Memory} {j : Nat}
    (h : ∀ x, 0x8000 + 8 * j ≤ x → x < 0x8008 + 8 * j → m.read x = n.read x) : m.bufRead j = n.bufRead j := by
  simp only [bufRead, readWord_congr (m := m) (n := n) (a := bufHiAt j)
    (fun x h1 h2 => h x (by rw [bufHiAt_eq] at h1; omega) (by rw [bufHiAt_eq] at h2; omega)),
    readWord_congr (m := m) (n := n) (a := bufLoAt j)
    (fun x h1 h2 => h x (by rw [bufLoAt_eq] at h1; omega) (by rw [bufLoAt_eq] at h2; omega))]

/-- Block read after block write, at every other index. -/
theorem bufRead_bufWrite_other (m : Memory) {i j : Nat} (v : Block) (h : i ≠ j) :
    (m.bufWrite j v).bufRead i = m.bufRead i :=
  bufRead_congr fun _ _ _ => read_bufWrite_other m v (by omega)

theorem bufWrite_wf (m : Memory) (j : Nat) (v : Block) (h : m.wf) : (m.bufWrite j v).wf :=
  writeWord_wf _ _ _ (writeWord_wf _ _ _ h)

/-- A block is determined by its two words. -/
theorem block_append_inj {a b c d : Word} (h : (a ++ b : Block) = c ++ d) : a = c ∧ b = d := by
  exact ⟨by simpa using congrArg hi64 h, by simpa using congrArg lo64 h⟩

/-- Memories that read the same block have the same bytes there. -/
theorem read_of_bufRead {m n : Memory} {j : Nat} {x : Block} (hm : m.bufRead j = some x) (hn : n.bufRead j = some x) :
    ∀ a, 0x8000 + 8 * j ≤ a → a < 0x8008 + 8 * j → m.read a = n.read a := by
  unfold bufRead at hm hn
  split at hm
  · rename_i h l eh el
    split at hn
    · rename_i h' l' eh' el'
      injection hm with hm
      injection hn with hn
      obtain ⟨rfl, rfl⟩ := block_append_inj (hm.trans hn.symm)
      obtain ⟨p0, p1, p2, p3⟩ := read_of_readWord eh
      obtain ⟨q0, q1, q2, q3⟩ := read_of_readWord eh'
      obtain ⟨r0, r1, r2, r3⟩ := read_of_readWord el
      obtain ⟨t0, t1, t2, t3⟩ := read_of_readWord el'
      rw [bufHiAt_eq] at p0 p1 p2 p3 q0 q1 q2 q3
      rw [bufLoAt_eq] at r0 r1 r2 r3 t0 t1 t2 t3
      intro a h1 h2
      have ha : a = 0x8000 + 8 * j ∨ a = 0x8000 + 8 * j + 1 ∨ a = 0x8000 + 8 * j + 2 ∨ a = 0x8000 + 8 * j + 3 ∨
          a = 0x8004 + 8 * j ∨ a = 0x8004 + 8 * j + 1 ∨ a = 0x8004 + 8 * j + 2 ∨ a = 0x8004 + 8 * j + 3 := by omega
      rcases ha with rfl | rfl | rfl | rfl | rfl | rfl | rfl | rfl
      · rw [p0, q0]
      · rw [p1, q1]
      · rw [p2, q2]
      · rw [p3, q3]
      · rw [r0, t0]
      · rw [r1, t1]
      · rw [r2, t2]
      · rw [r3, t3]
    · cases hn
  · cases hm

/-! ### The loop of a buffer command (R216, R219) -/

theorem mapBlocks_zero (f : Block → Block) (m : Memory) (j : Nat) : mapBlocks f m j 0 = some m := rfl

theorem mapBlocks_succ (f : Block → Block) (m : Memory) (j c : Nat) :
    mapBlocks f m j (c + 1) =
      match m.bufRead j with
      | none => none
      | some x => mapBlocks f (m.bufWrite j (f x)) (j + 1) c := rfl

/-- What the loop leaves: `f` of each block of the range, every byte outside it, the canonical form. -/
theorem mapBlocks_some {f : Block → Block} {m n : Memory} {j c : Nat} (h : mapBlocks f m j c = some n) :
    (∀ i, j ≤ i → i < j + c → ∃ x, m.bufRead i = some x ∧ n.bufRead i = some (f x)) ∧
    (∀ a, a < 0x8000 + 8 * j ∨ 0x8000 + 8 * (j + c) ≤ a → n.read a = m.read a) ∧
    (m.wf → n.wf) := by
  induction c generalizing m j with
  | zero =>
    rw [mapBlocks_zero] at h
    injection h with h
    subst h
    exact ⟨fun i h1 h2 => absurd h2 (by omega), fun _ _ => rfl, id⟩
  | succ c ih =>
    rw [mapBlocks_succ] at h
    cases hx : m.bufRead j with
    | none => simp [hx] at h
    | some x =>
      simp only [hx] at h
      obtain ⟨hin, hout, hwf⟩ := ih h
      refine ⟨?_, ?_, fun hm => hwf (bufWrite_wf _ _ _ hm)⟩
      · intro i h1 h2
        by_cases e : i = j
        · subst e
          refine ⟨x, hx, ?_⟩
          rw [bufRead_congr (n := m.bufWrite i (f x)) (fun y hy1 hy2 => hout y (by omega)), bufRead_bufWrite_same]
        · obtain ⟨y, hy, hn⟩ := hin i (by omega) (by omega)
          exact ⟨y, by rwa [bufRead_bufWrite_other _ _ e] at hy, hn⟩
      · intro a ha
        rw [hout a (by omega), read_bufWrite_other _ _ (by omega)]

/-- The loop meets no unwritten block exactly when the range has none. -/
theorem mapBlocks_isSome_iff (f : Block → Block) (m : Memory) (j c : Nat) :
    (mapBlocks f m j c).isSome = true ↔ ∀ i, j ≤ i → i < j + c → (m.bufRead i).isSome = true := by
  induction c generalizing m j with
  | zero => simp [mapBlocks_zero]; omega
  | succ c ih =>
    rw [mapBlocks_succ]
    cases hx : m.bufRead j with
    | none =>
      simp only [Option.isSome_none, Bool.false_eq_true, false_iff]
      intro h
      simpa [hx] using h j (Nat.le_refl _) (by omega)
    | some x =>
      simp only [ih]
      constructor
      · intro h i h1 h2
        by_cases e : i = j
        · simp [e, hx]
        · simpa [bufRead_bufWrite_other _ _ e] using h i (by omega) (by omega)
      · intro h i h1 h2
        rw [bufRead_bufWrite_other _ _ (by omega)]
        exact h i (by omega) (by omega)

/-- The memory after reset is in the canonical form. -/
theorem reset_wf (c : Config) : (State.resetWith c).des.buf.wf := List.Pairwise.nil

end Memory

end Sys2Proof.Machine
end

