-- ==== Sys2Proof/Laws/State.lean ====
section
/-! SUPPORT. What each named update leaves in each field of the state, one lemma a field, so that no later proof unfolds a
record update. -/

namespace Sys2Proof.Machine

/-! ### Fields after acceptance of a command (R71) -/

@[simp] theorem DesCore.accept_ctrlIe (d : DesCore) (w : Word) : (d.accept w).ctrlIe = d.ctrlIe := rfl
@[simp] theorem DesCore.accept_busy (d : DesCore) (w : Word) : (d.accept w).busy = true := rfl
@[simp] theorem DesCore.accept_done (d : DesCore) (w : Word) : (d.accept w).done = false := rfl
@[simp] theorem DesCore.accept_init (d : DesCore) (w : Word) : (d.accept w).init = d.init := rfl
@[simp] theorem DesCore.accept_ovr (d : DesCore) (w : Word) : (d.accept w).ovr = d.ovr := rfl
@[simp] theorem DesCore.accept_aerr (d : DesCore) (w : Word) : (d.accept w).aerr = d.aerr := rfl
@[simp] theorem DesCore.accept_errCode (d : DesCore) (w : Word) : (d.accept w).errCode = 0 := rfl
@[simp] theorem DesCore.accept_errInfo (d : DesCore) (w : Word) : (d.accept w).errInfo = 0 := rfl
@[simp] theorem DesCore.accept_cmdLast (d : DesCore) (w : Word) : (d.accept w).cmdLast = w := rfl
@[simp] theorem DesCore.accept_key (d : DesCore) (w : Word) : (d.accept w).key = d.key := rfl
@[simp] theorem DesCore.accept_knorm (d : DesCore) (w : Word) : (d.accept w).knorm = d.knorm := rfl
@[simp] theorem DesCore.accept_din (d : DesCore) (w : Word) : (d.accept w).din = d.din := rfl
@[simp] theorem DesCore.accept_dout (d : DesCore) (w : Word) : (d.accept w).dout = d.dout := rfl
@[simp] theorem DesCore.accept_hin (d : DesCore) (w : Word) : (d.accept w).hin = d.hin := rfl
@[simp] theorem DesCore.accept_rkin (d : DesCore) (w : Word) : (d.accept w).rkin = d.rkin := rfl
@[simp] theorem DesCore.accept_hout (d : DesCore) (w : Word) : (d.accept w).hout = d.hout := rfl
@[simp] theorem DesCore.accept_bufBase (d : DesCore) (w : Word) : (d.accept w).bufBase = d.bufBase := rfl
@[simp] theorem DesCore.accept_bufCnt (d : DesCore) (w : Word) : (d.accept w).bufCnt = d.bufCnt := rfl
@[simp] theorem DesCore.accept_rk (d : DesCore) (w : Word) : (d.accept w).rk = d.rk := rfl
@[simp] theorem DesCore.accept_xrk (d : DesCore) (w : Word) : (d.accept w).xrk = d.xrk := rfl
@[simp] theorem DesCore.accept_xrkn (d : DesCore) (w : Word) : (d.accept w).xrkn = d.xrkn := rfl
@[simp] theorem DesCore.accept_buf (d : DesCore) (w : Word) : (d.accept w).buf = d.buf := rfl
@[simp] theorem DesCore.accept_latch (d : DesCore) (w : Word) : (d.accept w).latch = d.capture w := rfl

/-! ### Fields after a successful completion (R72) -/

@[simp] theorem DesCore.finish_ctrlIe (d : DesCore) : (d.finish).ctrlIe = d.ctrlIe := rfl
@[simp] theorem DesCore.finish_busy (d : DesCore) : (d.finish).busy = false := rfl
@[simp] theorem DesCore.finish_done (d : DesCore) : (d.finish).done = true := rfl
@[simp] theorem DesCore.finish_init (d : DesCore) : (d.finish).init = d.init := rfl
@[simp] theorem DesCore.finish_ovr (d : DesCore) : (d.finish).ovr = d.ovr := rfl
@[simp] theorem DesCore.finish_aerr (d : DesCore) : (d.finish).aerr = d.aerr := rfl
@[simp] theorem DesCore.finish_errCode (d : DesCore) : (d.finish).errCode = 0 := rfl
@[simp] theorem DesCore.finish_errInfo (d : DesCore) : (d.finish).errInfo = 0 := rfl
@[simp] theorem DesCore.finish_cmdLast (d : DesCore) : (d.finish).cmdLast = d.cmdLast := rfl
@[simp] theorem DesCore.finish_key (d : DesCore) : (d.finish).key = d.key := rfl
@[simp] theorem DesCore.finish_knorm (d : DesCore) : (d.finish).knorm = d.knorm := rfl
@[simp] theorem DesCore.finish_din (d : DesCore) : (d.finish).din = d.din := rfl
@[simp] theorem DesCore.finish_dout (d : DesCore) : (d.finish).dout = d.dout := rfl
@[simp] theorem DesCore.finish_hin (d : DesCore) : (d.finish).hin = d.hin := rfl
@[simp] theorem DesCore.finish_rkin (d : DesCore) : (d.finish).rkin = d.rkin := rfl
@[simp] theorem DesCore.finish_hout (d : DesCore) : (d.finish).hout = d.hout := rfl
@[simp] theorem DesCore.finish_bufBase (d : DesCore) : (d.finish).bufBase = d.bufBase := rfl
@[simp] theorem DesCore.finish_bufCnt (d : DesCore) : (d.finish).bufCnt = d.bufCnt := rfl
@[simp] theorem DesCore.finish_rk (d : DesCore) : (d.finish).rk = d.rk := rfl
@[simp] theorem DesCore.finish_xrk (d : DesCore) : (d.finish).xrk = d.xrk := rfl
@[simp] theorem DesCore.finish_xrkn (d : DesCore) : (d.finish).xrkn = d.xrkn := rfl
@[simp] theorem DesCore.finish_buf (d : DesCore) : (d.finish).buf = d.buf := rfl
@[simp] theorem DesCore.finish_latch (d : DesCore) : (d.finish).latch = d.latch := rfl

/-! ### Fields after a completion with an error (R242) -/

@[simp] theorem DesCore.failWith_ctrlIe (d : DesCore) (e : CmdError) : (d.failWith e).ctrlIe = d.ctrlIe := rfl
@[simp] theorem DesCore.failWith_busy (d : DesCore) (e : CmdError) : (d.failWith e).busy = false := rfl
@[simp] theorem DesCore.failWith_done (d : DesCore) (e : CmdError) : (d.failWith e).done = true := rfl
@[simp] theorem DesCore.failWith_init (d : DesCore) (e : CmdError) : (d.failWith e).init = d.init := rfl
@[simp] theorem DesCore.failWith_ovr (d : DesCore) (e : CmdError) : (d.failWith e).ovr = d.ovr := rfl
@[simp] theorem DesCore.failWith_aerr (d : DesCore) (e : CmdError) : (d.failWith e).aerr = d.aerr := rfl
@[simp] theorem DesCore.failWith_errCode (d : DesCore) (e : CmdError) : (d.failWith e).errCode = e.code := rfl
@[simp] theorem DesCore.failWith_errInfo (d : DesCore) (e : CmdError) : (d.failWith e).errInfo = e.info := rfl
@[simp] theorem DesCore.failWith_cmdLast (d : DesCore) (e : CmdError) : (d.failWith e).cmdLast = d.cmdLast := rfl
@[simp] theorem DesCore.failWith_key (d : DesCore) (e : CmdError) : (d.failWith e).key = d.key := rfl
@[simp] theorem DesCore.failWith_knorm (d : DesCore) (e : CmdError) : (d.failWith e).knorm = d.knorm := rfl
@[simp] theorem DesCore.failWith_din (d : DesCore) (e : CmdError) : (d.failWith e).din = d.din := rfl
@[simp] theorem DesCore.failWith_dout (d : DesCore) (e : CmdError) : (d.failWith e).dout = d.dout := rfl
@[simp] theorem DesCore.failWith_hin (d : DesCore) (e : CmdError) : (d.failWith e).hin = d.hin := rfl
@[simp] theorem DesCore.failWith_rkin (d : DesCore) (e : CmdError) : (d.failWith e).rkin = d.rkin := rfl
@[simp] theorem DesCore.failWith_hout (d : DesCore) (e : CmdError) : (d.failWith e).hout = d.hout := rfl
@[simp] theorem DesCore.failWith_bufBase (d : DesCore) (e : CmdError) : (d.failWith e).bufBase = d.bufBase := rfl
@[simp] theorem DesCore.failWith_bufCnt (d : DesCore) (e : CmdError) : (d.failWith e).bufCnt = d.bufCnt := rfl
@[simp] theorem DesCore.failWith_rk (d : DesCore) (e : CmdError) : (d.failWith e).rk = d.rk := rfl
@[simp] theorem DesCore.failWith_xrk (d : DesCore) (e : CmdError) : (d.failWith e).xrk = d.xrk := rfl
@[simp] theorem DesCore.failWith_xrkn (d : DesCore) (e : CmdError) : (d.failWith e).xrkn = d.xrkn := rfl
@[simp] theorem DesCore.failWith_buf (d : DesCore) (e : CmdError) : (d.failWith e).buf = d.buf := rfl
@[simp] theorem DesCore.failWith_latch (d : DesCore) (e : CmdError) : (d.failWith e).latch = d.latch := rfl

/-! ### Fields after a bad host access (R83) -/

@[simp] theorem DesCore.badAccess_ctrlIe (d : DesCore) : (d.badAccess).ctrlIe = d.ctrlIe := rfl
@[simp] theorem DesCore.badAccess_busy (d : DesCore) : (d.badAccess).busy = d.busy := rfl
@[simp] theorem DesCore.badAccess_done (d : DesCore) : (d.badAccess).done = d.done := rfl
@[simp] theorem DesCore.badAccess_init (d : DesCore) : (d.badAccess).init = d.init := rfl
@[simp] theorem DesCore.badAccess_ovr (d : DesCore) : (d.badAccess).ovr = d.ovr := rfl
@[simp] theorem DesCore.badAccess_aerr (d : DesCore) : (d.badAccess).aerr = true := rfl
@[simp] theorem DesCore.badAccess_errCode (d : DesCore) : (d.badAccess).errCode = d.errCode := rfl
@[simp] theorem DesCore.badAccess_errInfo (d : DesCore) : (d.badAccess).errInfo = d.errInfo := rfl
@[simp] theorem DesCore.badAccess_cmdLast (d : DesCore) : (d.badAccess).cmdLast = d.cmdLast := rfl
@[simp] theorem DesCore.badAccess_key (d : DesCore) : (d.badAccess).key = d.key := rfl
@[simp] theorem DesCore.badAccess_knorm (d : DesCore) : (d.badAccess).knorm = d.knorm := rfl
@[simp] theorem DesCore.badAccess_din (d : DesCore) : (d.badAccess).din = d.din := rfl
@[simp] theorem DesCore.badAccess_dout (d : DesCore) : (d.badAccess).dout = d.dout := rfl
@[simp] theorem DesCore.badAccess_hin (d : DesCore) : (d.badAccess).hin = d.hin := rfl
@[simp] theorem DesCore.badAccess_rkin (d : DesCore) : (d.badAccess).rkin = d.rkin := rfl
@[simp] theorem DesCore.badAccess_hout (d : DesCore) : (d.badAccess).hout = d.hout := rfl
@[simp] theorem DesCore.badAccess_bufBase (d : DesCore) : (d.badAccess).bufBase = d.bufBase := rfl
@[simp] theorem DesCore.badAccess_bufCnt (d : DesCore) : (d.badAccess).bufCnt = d.bufCnt := rfl
@[simp] theorem DesCore.badAccess_rk (d : DesCore) : (d.badAccess).rk = d.rk := rfl
@[simp] theorem DesCore.badAccess_xrk (d : DesCore) : (d.badAccess).xrk = d.xrk := rfl
@[simp] theorem DesCore.badAccess_xrkn (d : DesCore) : (d.badAccess).xrkn = d.xrkn := rfl
@[simp] theorem DesCore.badAccess_buf (d : DesCore) : (d.badAccess).buf = d.buf := rfl
@[simp] theorem DesCore.badAccess_latch (d : DesCore) : (d.badAccess).latch = d.latch := rfl

/-! ### Fields after a dropped command write (R113) -/

@[simp] theorem DesCore.dropCommand_ctrlIe (d : DesCore) : (d.dropCommand).ctrlIe = d.ctrlIe := rfl
@[simp] theorem DesCore.dropCommand_busy (d : DesCore) : (d.dropCommand).busy = d.busy := rfl
@[simp] theorem DesCore.dropCommand_done (d : DesCore) : (d.dropCommand).done = d.done := rfl
@[simp] theorem DesCore.dropCommand_init (d : DesCore) : (d.dropCommand).init = d.init := rfl
@[simp] theorem DesCore.dropCommand_ovr (d : DesCore) : (d.dropCommand).ovr = true := rfl
@[simp] theorem DesCore.dropCommand_aerr (d : DesCore) : (d.dropCommand).aerr = d.aerr := rfl
@[simp] theorem DesCore.dropCommand_errCode (d : DesCore) : (d.dropCommand).errCode = d.errCode := rfl
@[simp] theorem DesCore.dropCommand_errInfo (d : DesCore) : (d.dropCommand).errInfo = d.errInfo := rfl
@[simp] theorem DesCore.dropCommand_cmdLast (d : DesCore) : (d.dropCommand).cmdLast = d.cmdLast := rfl
@[simp] theorem DesCore.dropCommand_key (d : DesCore) : (d.dropCommand).key = d.key := rfl
@[simp] theorem DesCore.dropCommand_knorm (d : DesCore) : (d.dropCommand).knorm = d.knorm := rfl
@[simp] theorem DesCore.dropCommand_din (d : DesCore) : (d.dropCommand).din = d.din := rfl
@[simp] theorem DesCore.dropCommand_dout (d : DesCore) : (d.dropCommand).dout = d.dout := rfl
@[simp] theorem DesCore.dropCommand_hin (d : DesCore) : (d.dropCommand).hin = d.hin := rfl
@[simp] theorem DesCore.dropCommand_rkin (d : DesCore) : (d.dropCommand).rkin = d.rkin := rfl
@[simp] theorem DesCore.dropCommand_hout (d : DesCore) : (d.dropCommand).hout = d.hout := rfl
@[simp] theorem DesCore.dropCommand_bufBase (d : DesCore) : (d.dropCommand).bufBase = d.bufBase := rfl
@[simp] theorem DesCore.dropCommand_bufCnt (d : DesCore) : (d.dropCommand).bufCnt = d.bufCnt := rfl
@[simp] theorem DesCore.dropCommand_rk (d : DesCore) : (d.dropCommand).rk = d.rk := rfl
@[simp] theorem DesCore.dropCommand_xrk (d : DesCore) : (d.dropCommand).xrk = d.xrk := rfl
@[simp] theorem DesCore.dropCommand_xrkn (d : DesCore) : (d.dropCommand).xrkn = d.xrkn := rfl
@[simp] theorem DesCore.dropCommand_buf (d : DesCore) : (d.dropCommand).buf = d.buf := rfl
@[simp] theorem DesCore.dropCommand_latch (d : DesCore) : (d.dropCommand).latch = d.latch := rfl

/-! ### Fields after a host write to STATUS (R38) -/

@[simp] theorem DesCore.writeStatus_ctrlIe (d : DesCore) (v : Word) : (d.writeStatus v).ctrlIe = d.ctrlIe := rfl
@[simp] theorem DesCore.writeStatus_busy (d : DesCore) (v : Word) : (d.writeStatus v).busy = d.busy := rfl
@[simp] theorem DesCore.writeStatus_done (d : DesCore) (v : Word) : (d.writeStatus v).done = (d.done && !v.getLsbD 1) := rfl
@[simp] theorem DesCore.writeStatus_init (d : DesCore) (v : Word) : (d.writeStatus v).init = d.init := rfl
@[simp] theorem DesCore.writeStatus_ovr (d : DesCore) (v : Word) : (d.writeStatus v).ovr = (d.ovr && !v.getLsbD 4) := rfl
@[simp] theorem DesCore.writeStatus_aerr (d : DesCore) (v : Word) : (d.writeStatus v).aerr = (d.aerr && !v.getLsbD 5) := rfl
@[simp] theorem DesCore.writeStatus_errCode (d : DesCore) (v : Word) : (d.writeStatus v).errCode = d.errCode := rfl
@[simp] theorem DesCore.writeStatus_errInfo (d : DesCore) (v : Word) : (d.writeStatus v).errInfo = d.errInfo := rfl
@[simp] theorem DesCore.writeStatus_cmdLast (d : DesCore) (v : Word) : (d.writeStatus v).cmdLast = d.cmdLast := rfl
@[simp] theorem DesCore.writeStatus_key (d : DesCore) (v : Word) : (d.writeStatus v).key = d.key := rfl
@[simp] theorem DesCore.writeStatus_knorm (d : DesCore) (v : Word) : (d.writeStatus v).knorm = d.knorm := rfl
@[simp] theorem DesCore.writeStatus_din (d : DesCore) (v : Word) : (d.writeStatus v).din = d.din := rfl
@[simp] theorem DesCore.writeStatus_dout (d : DesCore) (v : Word) : (d.writeStatus v).dout = d.dout := rfl
@[simp] theorem DesCore.writeStatus_hin (d : DesCore) (v : Word) : (d.writeStatus v).hin = d.hin := rfl
@[simp] theorem DesCore.writeStatus_rkin (d : DesCore) (v : Word) : (d.writeStatus v).rkin = d.rkin := rfl
@[simp] theorem DesCore.writeStatus_hout (d : DesCore) (v : Word) : (d.writeStatus v).hout = d.hout := rfl
@[simp] theorem DesCore.writeStatus_bufBase (d : DesCore) (v : Word) : (d.writeStatus v).bufBase = d.bufBase := rfl
@[simp] theorem DesCore.writeStatus_bufCnt (d : DesCore) (v : Word) : (d.writeStatus v).bufCnt = d.bufCnt := rfl
@[simp] theorem DesCore.writeStatus_rk (d : DesCore) (v : Word) : (d.writeStatus v).rk = d.rk := rfl
@[simp] theorem DesCore.writeStatus_xrk (d : DesCore) (v : Word) : (d.writeStatus v).xrk = d.xrk := rfl
@[simp] theorem DesCore.writeStatus_xrkn (d : DesCore) (v : Word) : (d.writeStatus v).xrkn = d.xrkn := rfl
@[simp] theorem DesCore.writeStatus_buf (d : DesCore) (v : Word) : (d.writeStatus v).buf = d.buf := rfl
@[simp] theorem DesCore.writeStatus_latch (d : DesCore) (v : Word) : (d.writeStatus v).latch = d.latch := rfl

/-! ### The latch at acceptance (R71) -/

@[simp] theorem DesCore.capture_cmd (d : DesCore) (w : Word) : (d.capture w).cmd = w := rfl
@[simp] theorem DesCore.capture_key (d : DesCore) (w : Word) : (d.capture w).key = d.key := rfl
@[simp] theorem DesCore.capture_din (d : DesCore) (w : Word) : (d.capture w).din = d.din := rfl
@[simp] theorem DesCore.capture_hin (d : DesCore) (w : Word) : (d.capture w).hin = d.hin := rfl
@[simp] theorem DesCore.capture_rkin (d : DesCore) (w : Word) : (d.capture w).rkin = d.rkin := rfl
@[simp] theorem DesCore.capture_base (d : DesCore) (w : Word) : (d.capture w).base = d.bufBase := rfl
@[simp] theorem DesCore.capture_cnt (d : DesCore) (w : Word) : (d.capture w).cnt = d.bufCnt := rfl

/-! ### The machine's own updates -/

@[simp] theorem State.popTurn_cfg (s : State) : s.popTurn.cfg = s.cfg := rfl
@[simp] theorem State.popTurn_des (s : State) : s.popTurn.des = s.des := rfl
@[simp] theorem State.popTurn_rst (s : State) : s.popTurn.rst = s.rst := rfl
@[simp] theorem State.popTurn_script (s : State) : s.popTurn.script = s.script := rfl
@[simp] theorem State.popTurn_schedule (s : State) : s.popTurn.schedule = s.schedule.tail := rfl
@[simp] theorem State.popTurn_reads (s : State) : s.popTurn.reads = s.reads := rfl
@[simp] theorem State.popTurn_draws (s : State) : s.popTurn.draws = s.draws := rfl
@[simp] theorem State.record_cfg (s : State) (off : Offset) (v : Word) : (s.record off v).cfg = s.cfg := rfl
@[simp] theorem State.record_des (s : State) (off : Offset) (v : Word) : (s.record off v).des = s.des := rfl
@[simp] theorem State.record_rst (s : State) (off : Offset) (v : Word) : (s.record off v).rst = s.rst := rfl
@[simp] theorem State.record_script (s : State) (off : Offset) (v : Word) : (s.record off v).script = s.script := rfl
@[simp] theorem State.record_schedule (s : State) (off : Offset) (v : Word) : (s.record off v).schedule = s.schedule := rfl
@[simp] theorem State.record_reads (s : State) (off : Offset) (v : Word) : (s.record off v).reads = ⟨off, v⟩ :: s.reads := rfl
@[simp] theorem State.record_draws (s : State) (off : Offset) (v : Word) : (s.record off v).draws = s.draws := rfl

/-- What acceptance leaves for the host's `withFetchWord`. -/
@[simp] theorem State.withFetchWord_des (s : State) (nbits w : Nat) :
    (s.withFetchWord nbits w).des = s.des.accept (tableWord nbits w) := rfl

@[simp] theorem State.withFetchWord_rst (s : State) (nbits w : Nat) : (s.withFetchWord nbits w).rst = false := rfl

@[simp] theorem State.withFetchWord_cfg (s : State) (nbits w : Nat) : (s.withFetchWord nbits w).cfg = s.cfg := rfl

@[simp] theorem State.withFetchWord_turn (s : State) (nbits w : Nat) : (s.withFetchWord nbits w).turn = .engine := rfl

end Sys2Proof.Machine
end

