-- ==== Sys2Proof/Laws/Ops.lean ====
section
/-! SUPPORT. What each shared operation can do, said once: the meanings, the port, the engine and a whole step. Later proofs
cite these instead of unfolding the operations. -/

namespace Sys2Proof.Machine

/-! ### How a command ends -/

/-- A completion answers next with the status of a success (R72). -/
theorem complete_eq (s : State) (d : DesCore) : s.complete d = .next { s with des := d.finish } := rfl

/-- Raising an error answers next and writes nothing but the status (R242). -/
theorem raise_eq (s : State) (e : CmdError) : s.raise e = .next { s with des := s.des.failWith e } := rfl

/-- A block command under a key (R210, R212). -/
theorem cryptBlock_init (dir : Direction) (s : State) (h : s.des.init = true) :
    cryptBlock dir s = s.complete { s.des with dout := desBlock s.des.latch.din s.des.rk dir } := by
  simp [cryptBlock, h]

/-- A block command with no key (R243). -/
theorem cryptBlock_noInit (dir : Direction) (s : State) (h : s.des.init = false) :
    cryptBlock dir s = s.raise .notInitialized := by
  simp [cryptBlock, h]

/-- The four ways a buffer command ends (R216, R217, R219, R75). -/
theorem cryptBuffer_cases (dir : Direction) (s : State) :
    (s.des.init = false ∧ cryptBuffer dir s = s.raise .notInitialized) ∨
    (s.des.init = true ∧ s.cfg.bufBlocks < s.des.latch.base.toNat + s.des.latch.cnt.toNat ∧
      cryptBuffer dir s = s.raise .bufferRange) ∨
    (s.des.init = true ∧ s.des.latch.base.toNat + s.des.latch.cnt.toNat ≤ s.cfg.bufBlocks ∧
      s.des.buf.mapBlocks (fun x => desBlock x s.des.rk dir) s.des.latch.base.toNat s.des.latch.cnt.toNat = none ∧
      cryptBuffer dir s = .fault .unwrittenBuffer) ∨
    (∃ m, s.des.init = true ∧ s.des.latch.base.toNat + s.des.latch.cnt.toNat ≤ s.cfg.bufBlocks ∧
      s.des.buf.mapBlocks (fun x => desBlock x s.des.rk dir) s.des.latch.base.toNat s.des.latch.cnt.toNat = some m ∧
      cryptBuffer dir s = s.complete { s.des with buf := m }) := by
  cases hi : s.des.init with
  | false => exact .inl ⟨rfl, by simp [cryptBuffer, hi]⟩
  | true =>
    by_cases hr : s.des.latch.base.toNat + s.des.latch.cnt.toNat ≤ s.cfg.bufBlocks
    · cases hm : s.des.buf.mapBlocks (fun x => desBlock x s.des.rk dir) s.des.latch.base.toNat s.des.latch.cnt.toNat with
      | none => exact .inr (.inr (.inl ⟨rfl, hr, rfl, by simp [cryptBuffer, hi, Latch.rangeOk, hr, hm]⟩))
      | some m => exact .inr (.inr (.inr ⟨m, rfl, hr, rfl, by simp [cryptBuffer, hi, Latch.rangeOk, hr, hm]⟩))
    · exact .inr (.inl ⟨rfl, by omega, by simp [cryptBuffer, hi, Latch.rangeOk, hr]⟩)

/-- The ways KEY_INIT ends (R190). -/
theorem execKeyInit_cases (klen : Nat) (s : State) :
    ((klen = 7 ∨ klen = 8) ∧ execKeyInit klen s =
      s.complete { s.des with
        rk := keySchedule (s.des.latch.normalisedKey klen), knorm := s.des.latch.normalisedKey klen, init := true }) ∨
    (¬(klen = 7 ∨ klen = 8) ∧ execKeyInit klen s = s.raise .keySize) := by
  by_cases h : klen = 7 ∨ klen = 8
  · exact .inl ⟨h, by simp [execKeyInit, keySizeOk, h]⟩
  · exact .inr ⟨h, by simp [execKeyInit, keySizeOk, h]⟩

/-- The ways KEY_EXPAND ends (R193). -/
theorem execKeyExpand_cases (klen nrk : Nat) (s : State) :
    ((klen = 7 ∨ klen = 8) ∧ nrk ≤ 16 ∧ execKeyExpand klen nrk s =
      s.complete { s.des with
        xrk := firstKeys (roundCount nrk) (keySchedule (s.des.latch.normalisedKey klen))
        xrkn := BitVec.ofNat 5 (roundCount nrk) }) ∨
    ((klen = 7 ∨ klen = 8) ∧ 16 < nrk ∧ execKeyExpand klen nrk s = s.raise .roundCount) ∨
    (¬(klen = 7 ∨ klen = 8) ∧ execKeyExpand klen nrk s = s.raise .keySize) := by
  by_cases h : klen = 7 ∨ klen = 8
  · by_cases hn : 16 < nrk
    · exact .inr (.inl ⟨h, hn, by simp [execKeyExpand, keySizeOk, h, hn]⟩)
    · exact .inl ⟨h, by omega, by simp [execKeyExpand, keySizeOk, h, hn]⟩
  · exact .inr (.inr ⟨h, by simp [execKeyExpand, keySizeOk, h]⟩)

/-- Entry `i` of the expansion bank: the key of the schedule below the count, 0 from there on (R193). -/
theorem firstKeys_getElem (c : Nat) (ks : KeyBank) (i : Nat) (hi : i < 16) :
    (firstKeys c ks)[i] = if i < c then ks[i] else 0 := by
  simp [firstKeys]

/-- Every entry of a cleared bank is 0 (R75, R196). -/
@[simp] theorem zeroBank_get (i : Fin 16) : zeroBank.get i = 0 := by
  simp [zeroBank, Vector.get]

/-! ### The register map -/

/-- An aligned offset below the banks. -/
theorem ofOffset_low (n : Nat) (off : Offset) (h4 : off.toNat % 4 = 0) (h : off.toNat < 0x100) :
    Reg.ofOffset n off = Reg.ofLowOffset off.toNat := by
  simp (disch := omega) only [Reg.ofOffset, if_neg]

/-- An aligned offset of the block buffer names a half of an existing block, and it is that half's offset (R85). -/
theorem ofOffset_buf (n : Nat) (off : Offset) (h4 : off.toNat % 4 = 0) (h1 : 0x8000 ≤ off.toNat)
    (h2 : off.toNat < 0x8000 + 8 * n) :
    ∃ j, j < n ∧ ((Reg.ofOffset n off = some (.bufHi j) ∧ off.toNat = bufHiAt j) ∨
      (Reg.ofOffset n off = some (.bufLo j) ∧ off.toNat = bufLoAt j)) := by
  refine ⟨(off.toNat - 0x8000) / 8, by omega, ?_⟩
  unfold Reg.ofOffset
  simp only
  rw [if_neg (by omega), if_pos h1, if_pos (by omega)]
  by_cases h8 : off.toNat % 8 = 0
  · exact .inl ⟨by simp [h8], by rw [Memory.bufHiAt_eq]; omega⟩
  · exact .inr ⟨by simp [h8], by rw [Memory.bufLoAt_eq]; omega⟩

/-! ### The port -/

/-- The ways a HostRead ends (R75, R83, R84, R270, R281). -/
theorem hostRead_cases (off : Offset) (s : State) :
    (s.rst = true ∧ hostRead off s = .value 0 s) ∨
    (s.rst = false ∧ Reg.ofOffset s.cfg.bufBlocks off = none ∧
      hostRead off s = .value 0 { s with des := s.des.badAccess }) ∨
    (∃ r, s.rst = false ∧ Reg.ofOffset s.cfg.bufBlocks off = some r ∧ s.des.readReg s.cfg.bufBlocks r = none ∧
      hostRead off s = .stop .unwrittenBuffer) ∨
    (∃ r v, s.rst = false ∧ Reg.ofOffset s.cfg.bufBlocks off = some r ∧ s.des.readReg s.cfg.bufBlocks r = some v ∧
      s.des.unspecified r = true ∧
      hostRead off s = .value (Config.freeWord s.draws) { s with draws := s.draws + 1 }) ∨
    (∃ r v, s.rst = false ∧ Reg.ofOffset s.cfg.bufBlocks off = some r ∧ s.des.readReg s.cfg.bufBlocks r = some v ∧
      s.des.unspecified r = false ∧ hostRead off s = .value v s) := by
  cases hr : s.rst with
  | true => exact .inl ⟨rfl, by simp [hostRead, hr]⟩
  | false =>
    cases ho : Reg.ofOffset s.cfg.bufBlocks off with
    | none => exact .inr (.inl ⟨rfl, rfl, by simp [hostRead, hr, ho]⟩)
    | some r =>
      cases hv : s.des.readReg s.cfg.bufBlocks r with
      | none => exact .inr (.inr (.inl ⟨r, rfl, rfl, hv, by simp [hostRead, hr, ho, hv]⟩))
      | some v =>
        cases hu : s.des.unspecified r with
        | true => exact .inr (.inr (.inr (.inl ⟨r, v, rfl, rfl, hv, hu, by simp [hostRead, hr, ho, hv, hu]⟩)))
        | false => exact .inr (.inr (.inr (.inr ⟨r, v, rfl, rfl, hv, hu, by simp [hostRead, hr, ho, hv, hu]⟩)))

/-- The ways a HostWrite ends (R83, R84, R270, R282). -/
theorem hostWrite_cases (off : Offset) (v : Word) (s : State) :
    (s.rst = true ∧ hostWrite off v s = .next s) ∨
    (s.rst = false ∧ Reg.ofOffset s.cfg.bufBlocks off = none ∧
      hostWrite off v s = .next { s with des := s.des.badAccess }) ∨
    (∃ r, s.rst = false ∧ Reg.ofOffset s.cfg.bufBlocks off = some r ∧ s.des.writeHazard r = true ∧
      hostWrite off v s = .fault .bufferWriteHazard) ∨
    (∃ r, s.rst = false ∧ Reg.ofOffset s.cfg.bufBlocks off = some r ∧ s.des.writeHazard r = false ∧
      hostWrite off v s = .next { s with des := s.des.writeReg r v }) := by
  cases hr : s.rst with
  | true => exact .inl ⟨rfl, by simp [hostWrite, hr]⟩
  | false =>
    cases ho : Reg.ofOffset s.cfg.bufBlocks off with
    | none => exact .inr (.inl ⟨rfl, rfl, by simp [hostWrite, hr, ho]⟩)
    | some r =>
      cases hz : s.des.writeHazard r with
      | true => exact .inr (.inr (.inl ⟨r, rfl, rfl, hz, by simp [hostWrite, hr, ho, hz]⟩))
      | false => exact .inr (.inr (.inr ⟨r, rfl, rfl, hz, by simp [hostWrite, hr, ho, hz]⟩))

/-- What a HostRead can do to the core: nothing, or set AERR; and it moves nothing else but the draws (R84). -/
theorem hostRead_value {off : Offset} {s t : State} {v : Word} (h : hostRead off s = .value v t) :
    (t.des = s.des ∨ (s.rst = false ∧ Reg.ofOffset s.cfg.bufBlocks off = none ∧ t.des = s.des.badAccess)) ∧
    t = { s with des := t.des, draws := t.draws } := by
  rcases hostRead_cases off s with ⟨_, e⟩ | ⟨hr, ho, e⟩ | ⟨r, _, _, _, e⟩ | ⟨r, x, _, _, _, _, e⟩ | ⟨r, x, _, _, _, _, e⟩ <;>
    rw [e] at h <;> injection h <;> subst_vars
  · exact ⟨.inl rfl, rfl⟩
  · exact ⟨.inr ⟨hr, ho, rfl⟩, rfl⟩
  · exact ⟨.inl rfl, rfl⟩
  · exact ⟨.inl rfl, rfl⟩

end Sys2Proof.Machine
end

