-- ==== Sys2Proof/Laws/PerInstr.lean ====
section
/-! SUPPORT. The family `OwnRow`: the word of each command lies in the command's own row of `spec/30_encoding.md` R116, the
words `w` with `w & 0xFFE0F0FF = OP`. One lemma for each constructor. -/

namespace Sys2Proof.Laws.OwnRow

/-- The word of the command, under the mask of R116, is the command's operation code. -/
def Statement (i : Instr) : Prop := encode i &&& 0xFFE0F0FF#32 = BitVec.ofNat 32 i.opcode

theorem keyInit (klen nrk : Nat) : Statement (.keyInit klen nrk) := layout_mask _ _ _

theorem keyExpand (klen nrk : Nat) : Statement (.keyExpand klen nrk) := layout_mask _ _ _

theorem encBlock (klen nrk : Nat) : Statement (.encBlock klen nrk) := layout_mask _ _ _

theorem decBlock (klen nrk : Nat) : Statement (.decBlock klen nrk) := layout_mask _ _ _

theorem roundF (klen nrk : Nat) : Statement (.roundF klen nrk) := layout_mask _ _ _

theorem encBuf (klen nrk : Nat) : Statement (.encBuf klen nrk) := layout_mask _ _ _

theorem decBuf (klen nrk : Nat) : Statement (.decBuf klen nrk) := layout_mask _ _ _

theorem zeroize (klen nrk : Nat) : Statement (.zeroize klen nrk) := layout_mask _ _ _

end Sys2Proof.Laws.OwnRow
end

