-- ==== Sys2Proof/Laws/Step.lean ====
section
/-! SUPPORT. What one step can do: one inversion lemma for the host's turn, one for a step, and the first step
of a run. -/

namespace Sys2Proof.Machine

/-- What the core is after the host's turn: as before, with AERR set by a bad access, or with one register written (R80,
R83, R84). The parameters, the reset line and the schedule are as before. -/
theorem hostTurn_next {s t : State} (h : hostTurn s = .next t) :
    (t.des = s.des ∨ (s.rst = false ∧ t.des = s.des.badAccess) ∨
      (∃ off v r, s.rst = false ∧ Reg.ofOffset s.cfg.bufBlocks off = some r ∧ s.des.writeHazard r = false ∧
        t.des = s.des.writeReg r v)) ∧
    t.cfg = s.cfg ∧ t.rst = s.rst ∧ t.schedule = s.schedule := by
  unfold hostTurn at h
  split at h
  · injection h with h
    subst h
    exact ⟨.inl rfl, rfl, rfl, rfl⟩
  · split at h
    · rename_i hv
      injection h with h
      subst h
      obtain ⟨hd, hs⟩ := hostRead_value hv
      have hc := congrArg State.cfg hs
      have hr := congrArg State.rst hs
      have hq := congrArg State.schedule hs
      refine ⟨?_, hc, hr, hq⟩
      rcases hd with hd | ⟨hr', _, hd⟩
      · exact .inl hd
      · exact .inr (.inl ⟨hr', hd⟩)
    · cases h
  · rename_i off v rest _
    rcases hostWrite_cases off v { s with script := rest } with ⟨_, e⟩ | ⟨hr, _, e⟩ | ⟨r, _, _, _, e⟩ | ⟨r, hr, ho, hz, e⟩ <;>
      rw [e] at h
    · injection h with h; subst h; exact ⟨.inl rfl, rfl, rfl, rfl⟩
    · injection h with h; subst h; exact ⟨.inr (.inl ⟨hr, rfl⟩), rfl, rfl, rfl⟩
    · cases h
    · injection h with h; subst h; exact ⟨.inr (.inr ⟨off, v, r, hr, ho, hz, rfl⟩), rfl, rfl, rfl⟩
  · split at h
    · rename_i hv
      injection h with h
      subst h
      obtain ⟨hd, hs⟩ := hostRead_value hv
      have hc := congrArg State.cfg hs
      have hr := congrArg State.rst hs
      have hq := congrArg State.schedule hs
      refine ⟨?_, hc, hr, hq⟩
      rcases hd with hd | ⟨hr', _, hd⟩
      · exact .inl hd
      · exact .inr (.inl ⟨hr', hd⟩)
    · cases h

/-- What the engine's turn can do (R72, R114): nothing, run the command decoded from the latch, or raise the error of a
word that is no command. -/
theorem engineTurn_cases (s : State) :
    ((s.rst = true ∨ s.des.busy = false) ∧ engineTurn s = .next s) ∨
    (∃ i, s.rst = false ∧ s.des.busy = true ∧ decode s.des.latch.cmd = .command i ∧ engineTurn s = exec i s) ∨
    (∃ why, s.rst = false ∧ s.des.busy = true ∧ decode s.des.latch.cmd = .illegal why ∧
      engineTurn s = s.raise (CmdError.ofIllegal why)) := by
  cases hr : s.rst with
  | true => exact .inl ⟨.inl rfl, by simp [engineTurn, hr]⟩
  | false =>
    cases hb : s.des.busy with
    | false => exact .inl ⟨.inr rfl, by simp [engineTurn, hb]⟩
    | true =>
      cases hd : decode s.des.latch.cmd with
      | command i => exact .inr (.inl ⟨i, rfl, rfl, rfl, by simp [engineTurn, hr, hb, hd]⟩)
      | illegal why => exact .inr (.inr ⟨why, rfl, rfl, rfl, by simp [engineTurn, hr, hb, hd]⟩)

/-- What a step that answers next has done: one turn of the host, the engine or the reset line (R17, R270). -/
theorem step_next {s t : State} (h : step s = .next t) :
    (s.turn = .host ∧ hostTurn s.popTurn = .next t) ∨ (s.turn = .engine ∧ engineTurn s.popTurn = .next t) ∨
    (s.turn = .rstAssert ∧ t = { s.popTurn with des := DesCore.reset, rst := true }) ∨
    (s.turn = .rstRelease ∧ t = { s.popTurn with rst := false }) := by
  unfold step at h
  split at h
  · cases h
  · split at h
    · exact .inl ⟨by assumption, h⟩
    · exact .inr (.inl ⟨by assumption, h⟩)
    · injection h with h
      exact .inr (.inr (.inl ⟨by assumption, h.symm⟩))
    · injection h with h
      exact .inr (.inr (.inr ⟨by assumption, h.symm⟩))

/-- The core that a command completes with, before the status is written: what each command does when its checks pass. -/
inductive Effect (s : State) : Instr → DesCore → Prop where
  | keyInit (klen nrk : Nat) (h : klen = 7 ∨ klen = 8) : Effect s (.keyInit klen nrk)
      { s.des with
        rk := keySchedule (s.des.latch.normalisedKey klen), knorm := s.des.latch.normalisedKey klen, init := true }
  | keyExpand (klen nrk : Nat) (h : klen = 7 ∨ klen = 8) (hn : nrk ≤ 16) : Effect s (.keyExpand klen nrk)
      { s.des with
        xrk := firstKeys (roundCount nrk) (keySchedule (s.des.latch.normalisedKey klen))
        xrkn := BitVec.ofNat 5 (roundCount nrk) }
  | encBlock (klen nrk : Nat) (h : s.des.init = true) : Effect s (.encBlock klen nrk)
      { s.des with dout := desBlock s.des.latch.din s.des.rk .enc }
  | decBlock (klen nrk : Nat) (h : s.des.init = true) : Effect s (.decBlock klen nrk)
      { s.des with dout := desBlock s.des.latch.din s.des.rk .dec }
  | roundF (klen nrk : Nat) : Effect s (.roundF klen nrk)
      { s.des with hout := roundFunction s.des.latch.hin s.des.latch.rkin }
  | encBuf (klen nrk : Nat) (m : Memory) (h : s.des.init = true)
      (hr : s.des.latch.base.toNat + s.des.latch.cnt.toNat ≤ s.cfg.bufBlocks)
      (hm : s.des.buf.mapBlocks (fun x => desBlock x s.des.rk .enc) s.des.latch.base.toNat s.des.latch.cnt.toNat = some m) :
      Effect s (.encBuf klen nrk) { s.des with buf := m }
  | decBuf (klen nrk : Nat) (m : Memory) (h : s.des.init = true)
      (hr : s.des.latch.base.toNat + s.des.latch.cnt.toNat ≤ s.cfg.bufBlocks)
      (hm : s.des.buf.mapBlocks (fun x => desBlock x s.des.rk .dec) s.des.latch.base.toNat s.des.latch.cnt.toNat = some m) :
      Effect s (.decBuf klen nrk) { s.des with buf := m }
  | zeroize (klen nrk : Nat) : Effect s (.zeroize klen nrk)
      { s.des with
        key := 0, knorm := 0, din := 0, dout := 0, hin := 0, rkin := 0, hout := 0, rk := zeroBank, xrk := zeroBank
        xrkn := 0, init := false }

/-- The three ways a command ends: with an error, at a block not written since reset, or with its effect (R240, R242). -/
theorem exec_cases (i : Instr) (s : State) :
    (∃ e, exec i s = s.raise e) ∨
    (exec i s = .fault .unwrittenBuffer ∧ ∃ k n, i = .encBuf k n ∨ i = .decBuf k n) ∨
    (∃ d, Effect s i d ∧ exec i s = s.complete d) := by
  cases i with
  | keyInit klen nrk =>
    rcases execKeyInit_cases klen s with ⟨h, q⟩ | ⟨_, q⟩
    · exact .inr (.inr ⟨_, .keyInit klen nrk h, q⟩)
    · exact .inl ⟨_, q⟩
  | keyExpand klen nrk =>
    rcases execKeyExpand_cases klen nrk s with ⟨h, hn, q⟩ | ⟨_, _, q⟩ | ⟨_, q⟩
    · exact .inr (.inr ⟨_, .keyExpand klen nrk h hn, q⟩)
    · exact .inl ⟨_, q⟩
    · exact .inl ⟨_, q⟩
  | encBlock klen nrk =>
    cases h : s.des.init with
    | true => exact .inr (.inr ⟨_, .encBlock klen nrk h, cryptBlock_init .enc s h⟩)
    | false => exact .inl ⟨_, cryptBlock_noInit .enc s h⟩
  | decBlock klen nrk =>
    cases h : s.des.init with
    | true => exact .inr (.inr ⟨_, .decBlock klen nrk h, cryptBlock_init .dec s h⟩)
    | false => exact .inl ⟨_, cryptBlock_noInit .dec s h⟩
  | roundF klen nrk => exact .inr (.inr ⟨_, .roundF klen nrk, rfl⟩)
  | encBuf klen nrk =>
    rcases cryptBuffer_cases .enc s with ⟨_, q⟩ | ⟨_, _, q⟩ | ⟨_, _, _, q⟩ | ⟨m, h, hr, hm, q⟩
    · exact .inl ⟨_, q⟩
    · exact .inl ⟨_, q⟩
    · exact .inr (.inl ⟨q, klen, nrk, .inl rfl⟩)
    · exact .inr (.inr ⟨_, .encBuf klen nrk m h hr hm, q⟩)
  | decBuf klen nrk =>
    rcases cryptBuffer_cases .dec s with ⟨_, q⟩ | ⟨_, _, q⟩ | ⟨_, _, _, q⟩ | ⟨m, h, hr, hm, q⟩
    · exact .inl ⟨_, q⟩
    · exact .inl ⟨_, q⟩
    · exact .inr (.inl ⟨q, klen, nrk, .inr rfl⟩)
    · exact .inr (.inr ⟨_, .decBuf klen nrk m h hr hm, q⟩)
  | zeroize klen nrk => exact .inr (.inr ⟨_, .zeroize klen nrk, rfl⟩)

/-- What a command that answers next leaves: the status of its error alone, or its effect and the status of a success; and
nothing outside the core (R72, R242). -/
theorem exec_next {i : Instr} {s t : State} (h : exec i s = .next t) :
    (∃ e, t = { s with des := s.des.failWith e }) ∨ (∃ d, Effect s i d ∧ t = { s with des := d.finish }) := by
  rcases exec_cases i s with ⟨e, q⟩ | ⟨q, _⟩ | ⟨d, hd, q⟩ <;> rw [q] at h
  · injection h with h
    exact .inl ⟨e, h.symm⟩
  · cases h
  · injection h with h
    exact .inr ⟨d, hd, h.symm⟩

/-- What a command leaves of the machine around the core: a completion writes the core alone (R72). -/
theorem exec_next_frame {i : Instr} {s t : State} (h : exec i s = .next t) : t = { s with des := t.des } := by
  rcases exec_next h with ⟨e, q⟩ | ⟨d, _, q⟩ <;> rw [q]

/-- No step changes the parameters (R9). -/
theorem step_keeps_cfg {s t : State} (h : step s = .next t) : t.cfg = s.cfg := by
  rcases step_next h with ⟨_, h⟩ | ⟨_, h⟩ | ⟨_, h⟩ | ⟨_, h⟩
  · exact (hostTurn_next h).2.1
  · rcases engineTurn_cases s.popTurn with ⟨_, e⟩ | ⟨i, _, _, _, e⟩ | ⟨_, _, _, _, e⟩ <;> rw [e] at h
    · injection h with h; rw [← h]; rfl
    · exact (congrArg State.cfg (exec_next_frame h)).trans rfl
    · injection h with h; rw [← h]; rfl
  · rw [h]; rfl
  · rw [h]; rfl

/-! ### Runs -/

/-- A run whose first step answers next goes on from there. -/
theorem run_succ_next {k : Nat} {s t : State} (h : step s = .next t) :
    Sys2Proof.core.run (k + 1) s = Sys2Proof.core.run k t := by
  have h' : Sys2Proof.core.step s = .next t := h
  simp [Host.Core.run, h']

/-- A run whose first step faults is that fault. -/
theorem run_succ_fault {k : Nat} {s : State} {f : Fault} (h : step s = .fault f) :
    Sys2Proof.core.run (k + 1) s = .fault f := by
  have h' : Sys2Proof.core.step s = .fault f := h
  simp [Host.Core.run, h']

/-- A run whose first step is refused is that refusal. -/
theorem run_succ_refused {k : Nat} {s : State} {r : Refusal} (h : step s = .refused r) :
    Sys2Proof.core.run (k + 1) s = .refused r := by
  have h' : Sys2Proof.core.step s = .refused r := h
  simp [Host.Core.run, h']

end Sys2Proof.Machine
end

