-- ==== Sys2Proof/Tests/Slice0.lean ====
section
/-! SUPPORT. Tests on fixed values, whose expected results stand in `spec/95_test_vectors.md` and in the examples of the
rules, and a witness for the hypotheses of every statement that has some. -/

set_option Elab.async false

namespace Sys2Proof.Tests

open Sys2Proof Sys2Proof.Machine

/-! ## Small states -/

/-- The next state of an outcome, if it has one. -/
def nextOf : Result → Option State
  | .next t => some t
  | _ => none

/-- The fault of an outcome, if it has one. -/
def faultOf : Result → Option Fault
  | .fault f => some f
  | _ => none

/-- A machine around a core, with the parameters of reset (128 blocks). -/
def around (d : DesCore) : State := { State.reset with des := d }

/-- A core that holds the schedule of a normalised key. -/
def keyed (kn : Block) : DesCore := { DesCore.reset with rk := keySchedule kn, knorm := kn, init := true }

/-- A machine whose core has accepted a word. -/
def inFlight (d : DesCore) (w : Word) : State := around (d.accept w)

/-- The core after the engine's step on an accepted word; none where it does not answer next. -/
def after (d : DesCore) (w : Word) : Option DesCore := (nextOf (engineTurn (inFlight d w))).map State.des

/-- What a register reads after that step. -/
def reads (d : DesCore) (w : Word) (r : Reg) : Option Word := (after d w).bind (fun t => t.readReg 128 r)

/-- The key of the published example (`spec/95_test_vectors.md` 1.4). -/
def grabbe : Block := 0x133457799BBCDFF1

/-- The core with the published key active. -/
def keyedG : DesCore := keyed grabbe

/-- A core with one written block of the buffer and a range. -/
def withBlock (d : DesCore) (j : Nat) (x : Block) (base cnt : BitVec 16) : DesCore :=
  { d with buf := Memory.bufWrite [] j x, bufBase := base, bufCnt := cnt }

/-! ## WellFormed -/

/-- KLEN has 4 bits (R110). -/
theorem test_wf_klen_refused : ¬ (Instr.keyInit 16 0).KlenFits ∧ ¬ (Instr.keyInit 16 0).WellFormed := by decide

/-- NRK has 5 bits (R110). -/
theorem test_wf_nrk_refused : ¬ (Instr.keyExpand 8 32).NrkFits ∧ ¬ (Instr.keyExpand 8 32).WellFormed := by decide

theorem test_wf_accepted : (Instr.keyExpand 15 31).WellFormed := by decide

/-! ## Decoding: words written out bit by bit from R110 and R111, [31:21] NRK [15:12] KLEN OP -/

theorem test_decode_keyInit : decode 0b00000000000_00000_0000_1000_00000001#32 = .command (.keyInit 8 0) := by decide

theorem test_decode_keyExpand : decode 0b00000000000_00010_0000_1000_00000010#32 = .command (.keyExpand 8 2) := by decide

theorem test_decode_encBlock : decode 0b00000000000_11111_0000_1111_00000011#32 = .command (.encBlock 15 31) := by decide

theorem test_decode_decBlock : decode 0b00000000000_00001_0000_0000_00000100#32 = .command (.decBlock 0 1) := by decide

theorem test_decode_roundF : decode 0b00000000000_10000_0000_0001_00000101#32 = .command (.roundF 1 16) := by decide

theorem test_decode_encBuf : decode 0b00000000000_00000_0000_0000_00000110#32 = .command (.encBuf 0 0) := by decide

theorem test_decode_decBuf : decode 0b00000000000_00100_0000_0010_00000111#32 = .command (.decBuf 2 4) := by decide

theorem test_decode_zeroize : decode 0b00000000000_00000_0000_0000_00001000#32 = .command (.zeroize 0 0) := by decide

/-- The lowest bit of each reserved field, with a defined operation code (R115). -/
theorem test_decode_reserved :
    decode 0b00000000001_00000_0000_1000_00000001#32 = .illegal .reservedBits ∧
    decode 0b00000000000_00000_0001_1000_00000001#32 = .illegal .reservedBits ∧
    decode 0b00000000000_00000_0000_1000_00001001#32 = .illegal .reservedOp := by decide

/-- A table word longer than the row keeps no bit above it. -/
theorem test_decodeTableWord : decodeTableWord 32 0x00020802 = some (.keyExpand 8 2) ∧
    decodeTableWord 8 0xF05 = some (.roundF 0 0) ∧ decodeTableWord 32 0x00200005 = none := by decide

/-! ## Commands (`spec/95_test_vectors.md` 2.6, 2.7) -/

/-- Row 1 of 2.6. -/
theorem test_keyInit_8 :
    let d := { DesCore.reset with key := grabbe }
    reads d 0x00000801 .knorm0 = some 0x13345779 ∧ reads d 0x00000801 .knorm1 = some 0x9BBCDFF1 ∧
    reads d 0x00000801 (.rkHi 0) = some 0x1B02EFFC ∧ reads d 0x00000801 (.rkLo 0) = some 0x70720000 ∧
    reads d 0x00000801 (.rkHi 15) = some 0xCB3D8B0E ∧ reads d 0x00000801 (.rkLo 15) = some 0x17F50000 ∧
    reads d 0x00000801 .status = some 0x06 ∧ reads d 0x00000801 .errcode = some 0 := by decide +kernel

/-- Rows 3, 4 and 7 of 2.6: byte 7 of a 7-byte key is not read; a bad length; reserved bits before the length. -/
theorem test_keyInit_7_and_errors :
    let d := { DesCore.reset with key := 0x12695BC9B7B7F8AB }
    reads d 0x00000701 .knorm0 = some 0x13345779 ∧ reads d 0x00000701 .knorm1 = some 0x9BBCDFF1 ∧
    reads d 0x00000601 .errcode = some 0x00000301 ∧ reads d 0x00000601 .status = some 0x0A ∧
    reads d 0x00001801 .errcode = some 0x00000201 := by decide +kernel

/-- The example of R193. -/
theorem test_keyExpand_two :
    let d := { keyedG with key := 0x0E329232EA6D0D73 }
    reads d 0x00020802 (.xrkHi 0) = some 0x36146478 ∧ reads d 0x00020802 (.xrkLo 0) = some 0xE1E10000 ∧
    reads d 0x00020802 (.xrkHi 1) = some 0x40BD1176 ∧ reads d 0x00020802 (.xrkLo 1) = some 0xE8FD0000 ∧
    reads d 0x00020802 (.xrkHi 2) = some 0 ∧ reads d 0x00020802 .xrkn = some 2 ∧
    reads d 0x00020802 (.rkHi 0) = some 0x1B02EFFC := by decide +kernel

/-- NRK = 0 means 16, NRK = 17 is rejected, and KLEN is checked before NRK (2.6). -/
theorem test_keyExpand_counts :
    let d := { DesCore.reset with key := grabbe }
    reads d 0x00000802 (.xrkHi 15) = some 0xCB3D8B0E ∧ reads d 0x00000802 .xrkn = some 16 ∧
    reads d 0x00110802 .errcode = some 0x00000401 ∧ reads d 0x00110602 .errcode = some 0x00000301 := by decide +kernel

/-- Rows 1, 3 and 4 of 2.7: KLEN and NRK are ignored, bit 21 is not part of NRK. -/
theorem test_encBlock :
    let d := { keyedG with din := 0x0123456789ABCDEF }
    reads d 0x00000003 .dout0 = some 0x85E81354 ∧ reads d 0x001F0F03 .dout1 = some 0x0F0AB405 ∧
    reads d 0x00FF0F03 .errcode = some 0x00000201 ∧ reads d 0x00FF0F03 .dout0 = some 0 := by decide +kernel

/-- Row 5 of 2.7. -/
theorem test_encBlock_noInit :
    reads DesCore.reset 0x00000003 .errcode = some 2 ∧ reads DesCore.reset 0x00000003 .status = some 0x0A := by
  decide +kernel

/-- Row 2 of 2.7, and 2.5: decryption and encryption of one block differ under this key. -/
theorem test_decBlock :
    reads { keyedG with din := 0x85E813540F0AB405 } 0x00000004 .dout0 = some 0x01234567 ∧
    reads { keyedG with din := 0x85E813540F0AB405 } 0x00000004 .dout1 = some 0x89ABCDEF ∧
    reads keyedG 0x00000004 .dout0 = some 0x9EFDFC5C ∧ reads keyedG 0x00000003 .dout0 = some 0x948A43F9 := by
  decide +kernel

/-- Rows 6 and 7 of 2.7: no key is needed. -/
theorem test_roundF :
    reads { DesCore.reset with hin := 0xF0AAF0AA, rkin := 0x1B02EFFC7072 } 0x00000005 .hout = some 0x234AA9BB ∧
    reads DesCore.reset 0x00000005 .hout = some 0xD8D8DBBC ∧ reads DesCore.reset 0x00000005 .status = some 0x02 := by
  decide +kernel

/-- The example of R216: two blocks under the weak key. -/
theorem test_encBuf :
    let d := { keyed 0x0101010101010101 with
      buf := (Memory.bufWrite [] 0 0).bufWrite 1 0x8CA64DE9C1B123A7, bufBase := 0, bufCnt := 2 }
    (after d 0x00000006).bind (fun t => t.buf.bufRead 0) = some 0x8CA64DE9C1B123A7 ∧
    (after d 0x00000006).bind (fun t => t.buf.bufRead 1) = some 0 := by decide +kernel

/-- The ends of the range (2.7): the last block, one block too many, and an empty range at and past the end. -/
theorem test_encBuf_range :
    reads (withBlock keyedG 127 0 127 1) 0x00000006 .errcode = some 0 ∧
    reads (withBlock keyedG 127 0 127 2) 0x00000006 .errcode = some 0x00000501 ∧
    reads (withBlock keyedG 127 0 128 0) 0x00000006 .errcode = some 0 ∧
    reads (withBlock keyedG 127 0 129 0) 0x00000006 .errcode = some 0x00000501 := by decide +kernel

/-- The example of R219. -/
theorem test_decBuf :
    (after (withBlock keyedG 3 0x85E813540F0AB405 3 1) 0x00000007).bind (fun t => t.buf.bufRead 3) =
      some 0x0123456789ABCDEF := by decide +kernel

/-- No 16-bit wrap (R217), and INIT before the range (R243). -/
theorem test_decBuf_errors :
    reads (withBlock keyedG 0 0 0xFFFF 0xFFFF) 0x00000007 .errcode = some 0x00000501 ∧
    reads (withBlock DesCore.reset 0 0 200 5) 0x00000007 .errcode = some 2 := by decide +kernel

/-- The zeroize row of 2.6: everything of the key is 0, the range registers and CTRL are not. -/
theorem test_zeroize :
    let d := { keyedG with
      key := grabbe, din := 1, dout := 2, hin := 3, rkin := 4, hout := 5, xrk := keySchedule grabbe, xrkn := 16
      bufBase := 6, bufCnt := 7, ctrlIe := true }
    (∀ r ∈ [Reg.key0, .key1, .knorm0, .knorm1, .din0, .din1, .dout0, .dout1, .hin, .rkin0, .rkin1, .hout, .xrkn, .rkHi 0,
      .rkLo 15, .xrkHi 0, .xrkLo 15], reads d 0x00000008 r = some 0) ∧
    reads d 0x00000008 .status = some 0x02 ∧ reads d 0x00000008 .bufBase = some 6 ∧ reads d 0x00000008 .bufCnt = some 7 ∧
    reads d 0x00000008 .ctrl = some 1 := by decide +kernel

/-- The last row of 2.6: nothing is cleared. -/
theorem test_zeroize_reserved :
    reads { keyedG with key := grabbe } 0x00200008 .errcode = some 0x00000201 ∧
    reads { keyedG with key := grabbe } 0x00200008 .key0 = some 0x13345779 := by decide +kernel

/-! ## DES functions (`spec/95_test_vectors.md` 2.1 to 2.5) -/

theorem test_permutations :
    ip 0x0000000000000001 = 0x0000008000000000 ∧ ip 0x8000000000000000 = 0x0000000001000000 ∧
    ipInv 0xCC00CCFFF0AAF0AA = 0x0123456789ABCDEF ∧ expand 0x00000001 = 0x800000000002 ∧
    expand 0x80000000 = 0x400000000001 ∧ pBox 0x00000001 = 0x00000800 ∧ pBox 0x80000000 = 0x00800000 ∧
    pc1 grabbe = 0xF0CCAAF556678F ∧ rotl28 0x8000000 1 = 0x0000001 ∧ rotl28 0xC000000 2 = 0x0000003 := by decide +kernel

theorem test_sBoxes :
    sLookup s1 0b000000 = 14 ∧ sLookup s1 0b111111 = 13 ∧ sLookup s1 0b011011 = 5 ∧ sLookup s5 0b101101 = 2 ∧
    sLookup s8 0b100001 = 2 ∧ sLayer 0 = 0xEFA72C4D ∧ sLayer 0xFFFFFFFFFFFF = 0xD9CE3DCB ∧
    sLayer 0x6117BA866527 = 0x5C82B597 := by decide +kernel

theorem test_parity :
    [0x00, 0x01, 0x02, 0x03, 0x13, 0x34, 0x57, 0x80, 0x81, 0xFE, 0xFF].map par =
      [0x01, 0x01, 0x02, 0x02, 0x13, 0x34, 0x57, 0x80, 0x80, 0xFE, 0xFE] := by decide +kernel

theorem test_keyNorm :
    keyNorm (keyBytes 8 0x133457799BBCDFF0) 8 = grabbe ∧ keyNorm (keyBytes 7 0xFFFFFFFFFFFFFF00) 7 = 0xFEFEFEFEFEFEFEFE ∧
    keyNorm (keyBytes 7 0x123456789ABCDE00) 7 = 0x131A15CE89D5F2BC := by decide +kernel

/-- The key schedule of 2.4, every round. -/
theorem test_keySchedule :
    (keySchedule grabbe).toList =
      [0x1B02EFFC7072, 0x79AED9DBC9E5, 0x55FC8A42CF99, 0x72ADD6DB351D, 0x7CEC07EB53A8, 0x63A53E507B2F, 0xEC84B7F618BC,
        0xF78A3AC13BFB] ++
      [0xE0DBEBEDE781, 0xB1F347BA464F, 0x215FD3DED386, 0x7571F59467E9, 0x97C5D1FABA41, 0x5F43B7F2E73A, 0xBF918D3D3F0A,
        0xCB3D8B0E17F5] := by decide +kernel

/-- The published vectors of 1.4, and the last row of 2.5. -/
theorem test_published_vectors :
    desBlock 0x4E6F772069732074 (keySchedule 0x0123456789ABCDEF) .enc = 0x3FA40E8A984D4815 ∧
    desBlock 0x8787878787878787 (keySchedule 0x0E329232EA6D0D73) .enc = 0 ∧
    desBlock 0x0123456789ABCDEF (keySchedule 0x131A15CE89D5F2BC) .enc = 0xF768419FCE8327F0 ∧
    desBlock 0x85E813540F0AB405 (keySchedule 0x0101010101010101) .dec = 0x8931FE47CE40E18F := by decide +kernel

/-! ## The port (`spec/95_test_vectors.md` 2.7, 2.8) -/

/-- What the host reads and the core after it. -/
def portRead (off : Offset) (s : State) : Option (Word × DesCore) :=
  match hostRead off s with
  | .value v t => some (v, t.des)
  | .stop _ => none

theorem test_bad_reads :
    portRead 0x002 State.reset = some (0, { DesCore.reset with aerr := true }) ∧
    portRead 0x05C State.reset = some (0, { DesCore.reset with aerr := true }) ∧
    portRead 0x8400 State.reset = some (0, { DesCore.reset with aerr := true }) := by decide +kernel

theorem test_bad_write : nextOf (hostWrite 0x0FC 1 State.reset) = some (around { DesCore.reset with aerr := true }) := by
  decide +kernel

/-- W1C (2.8): bit 5 clears AERR alone; 0x0D clears nothing. -/
theorem test_writeOneToClear :
    let d := { DesCore.reset with done := true, ovr := true, aerr := true, init := true }
    nextOf (hostWrite 0x014 0x20 (around d)) = some (around { d with aerr := false }) ∧
    nextOf (hostWrite 0x014 0x0D (around d)) = some (around d) := by decide +kernel

/-- Reserved register bits (2.7), and a dropped command (2.8). -/
theorem test_register_writes :
    ((nextOf (hostWrite 0x048 0x7072ABCD State.reset)).bind (fun t => t.des.readReg 128 .rkin1)) = some 0x70720000 ∧
    ((nextOf (hostWrite 0x050 0x12340005 State.reset)).bind (fun t => t.des.readReg 128 .bufBase)) = some 5 ∧
    nextOf (hostWrite 0x01C 3 (inFlight DesCore.reset 5)) = some (around { DesCore.reset.accept 5 with ovr := true }) := by
  decide +kernel

/-- An unwritten word is a fault, whole or in half (R75). -/
theorem test_unwritten :
    portRead 0x8000 State.reset = none ∧
    faultOf (engineTurn (inFlight { keyedG with buf := Memory.writeWord [] 0x8000 0, bufCnt := 1 } 6)) =
      some .unwrittenBuffer := by decide +kernel

/-- The examples of R117 from their text, a value in hexadecimal with a mnemonic in capitals, and lines that are none. -/
theorem test_assembler :
    assemble "key_init klen=8" = some 0x00000801 ∧ assemble "key_init klen=7" = some 0x00000701 ∧
    assemble "key_expand klen=8, nrk=2" = some 0x00020802 ∧ assemble "KEY_EXPAND klen=8, nrk=0x10" = some 0x00100802 ∧
    assemble "zeroize" = some 0x00000008 ∧ assemble "key_init" = none ∧ assemble "key_init klen=16" = none := by
  decide +kernel

/-- A script by the words of R118 and R119, and the two ends of the race of program P3: completion before the second write,
or after it. -/
theorem test_race_of_P3 :
    let s := { around { DesCore.reset with hin := 0xF0AAF0AA, rkin := 0x1B02EFFC7072 } with script := cmdOp 5 ++ cmdOp 3 }
    let status := fun (sch : List Turn) (k : Nat) =>
      match Sys2Proof.core.run k { s with schedule := sch } with
      | .next t => some (DesCore.statusWord (State.des t))
      | _ => none
    status [.host, .host, .engine] 3 = some 0x12 ∧ status [.host, .engine, .host, .engine] 4 = some 0x0A := by
  decide +kernel

/-! ## Witnesses: encoding and DES functions. Each shows values that meet the hypotheses of the statement it is named after,
at the ends of the ranges the statement gives. -/

theorem witness_DecodeAndEncodeAgree :
    (Instr.zeroize 15 31).WellFormed ∧ (Instr.keyInit 0 0).WellFormed ∧
    decode 0x001F0F08 = .command (.zeroize 15 31) := by decide

theorem witness_CommandWordsAreTheMaskedRows :
    decode 0x001F0F01 = .command (.keyInit 15 31) ∧ (Instr.keyInit 15 31).opcode = 1 ∧
    0x001F0F01#32 &&& 0xFFE0F0FF#32 = BitVec.ofNat 32 1 ∧ 0x00000008#32 &&& 0xFFE0F0FF#32 = BitVec.ofNat 32 8 := by decide

/-- Both kinds of reserved word, at the ends of their ranges. -/
theorem witness_ReservedWordsAreIllegal :
    (0xFFFFFF00#32 &&& 0xFF#32 = 0 ∧ 9 ≤ (0x00000009#32 &&& 0xFF#32).toNat ∧ 9 ≤ (0x000000FF#32 &&& 0xFF#32).toNat) ∧
    (1 ≤ (0x00001001#32 &&& 0xFF#32).toNat ∧ (0x00001001#32 &&& 0xFF#32).toNat ≤ 8 ∧ 0x00001001#32 &&& 0xFFE0F000#32 ≠ 0) ∧
    (1 ≤ (0x80000008#32 &&& 0xFF#32).toNat ∧ (0x80000008#32 &&& 0xFF#32).toNat ≤ 8 ∧ 0x80000008#32 &&& 0xFFE0F000#32 ≠ 0) := by
  decide

theorem witness_InitialPermutationsInverse : (1 ≤ 1 ∧ 1 ≤ 64) ∧ 1 ≤ 64 ∧ 64 ≤ 64 := by decide

theorem witness_PermuteMovesDesBits :
    eTable.length = 48 ∧ (∀ x ∈ eTable, 1 ≤ x ∧ x ≤ 32) ∧ (1 ≤ 1 ∧ 1 ≤ 48) ∧ (1 ≤ 48 ∧ 48 ≤ 48) := by decide

/-- The halves of the published example (`spec/95_test_vectors.md` 2.4). -/
def exampleC (n : Nat) : BitVec 28 :=
  ([0xF0CCAAF, 0xE19955F, 0xC332ABF, 0x0CCAAFF, 0x332ABFC, 0xCCAAFF0, 0x32ABFC3, 0xCAAFF0C, 0x2ABFC33] ++
    [0x557F866, 0x55FE199, 0x57F8665, 0x5FE1995, 0x7F86655, 0xFE19955, 0xF866557, 0xF0CCAAF]).getD n 0

/-- The halves of the published example (`spec/95_test_vectors.md` 2.4). -/
def exampleD (n : Nat) : BitVec 28 :=
  ([0x556678F, 0xAACCF1E, 0x5599E3D, 0x56678F5, 0x599E3D5, 0x6678F55, 0x99E3D55, 0x678F556, 0x9E3D559] ++
    [0x3C7AAB3, 0xF1EAACC, 0xC7AAB33, 0x1EAACCF, 0x7AAB33C, 0xEAACCF1, 0xAAB33C7, 0x556678F]).getD n 0

theorem witness_RoundKeysFollowTheRotations :
    exampleC 0 ++ exampleD 0 = pc1 grabbe ∧
    ∀ r < 16, exampleC (r + 1) = rotl28 (exampleC r) (shifts.getD r 0) ∧
      exampleD (r + 1) = rotl28 (exampleD r) (shifts.getD r 0) := by decide +kernel

theorem witness_KeyNormalisationSpreadsAndSetsParity : 0 < 8 ∧ 7 < 8 := by decide

theorem witness_ParityBitsNeverReachRoundKeys :
    (0x133457799BBCDFF0#64 : Block) ≠ grabbe ∧
    ∀ i < 64, i % 8 ≠ 0 → (0x133457799BBCDFF0#64).getLsbD i = grabbe.getLsbD i := by decide +kernel

/-- The halves of the published example (`spec/95_test_vectors.md` 2.5). -/
def exampleL (n : Nat) : Word :=
  ([0xCC00CCFF, 0xF0AAF0AA, 0xEF4A6544, 0xCC017709, 0xA25C0BF4, 0x77220045, 0x8A4FA637, 0xE967CD69, 0x064ABA10] ++
    [0xD5694B90, 0x247CC67A, 0xB7D5D7B2, 0xC5783C78, 0x75BD1858, 0x18C3155A, 0xC28C960D, 0x43423234]).getD n 0

/-- The halves of the published example (`spec/95_test_vectors.md` 2.5). -/
def exampleR (n : Nat) : Word :=
  ([0xF0AAF0AA, 0xEF4A6544, 0xCC017709, 0xA25C0BF4, 0x77220045, 0x8A4FA637, 0xE967CD69, 0x064ABA10, 0xD5694B90] ++
    [0x247CC67A, 0xB7D5D7B2, 0xC5783C78, 0x75BD1858, 0x18C3155A, 0xC28C960D, 0x43423234, 0x0A4CD995]).getD n 0

theorem witness_FeistelSwapsTheLastHalves :
    (exampleL 0 ++ exampleR 0 : Block) = ip 0x0123456789ABCDEF ∧
    ∀ n (h : n < 16), exampleL (n + 1) = exampleR n ∧
      exampleR (n + 1) = exampleL n ^^^ roundFunction (exampleR n) ((keySchedule grabbe).get ⟨n, h⟩) := by decide +kernel

theorem witness_WeakKeysMakeInvolutions : OneKey (keySchedule 0xE0E0E0E0F1F1F1F1) :=
  ⟨0xFFFFFF000000, by decide +kernel⟩

theorem witness_SixteenHostRoundsEqualEncBlock : (inFlight { keyedG with din := 0x0123456789ABCDEF } 3).des.init = true := by
  decide +kernel

/-! ## Witnesses: commands -/

theorem witness_KeyInitLoadsTheSchedule : (7 = 7 ∨ 7 = 8) ∧ (8 = 7 ∨ 8 = 8) := by decide

theorem witness_KeyExpandFillsTheExpansionBank : ((7 = 7 ∨ 7 = 8) ∧ 0 ≤ 16) ∧ ((8 = 7 ∨ 8 = 8) ∧ 16 ≤ 16) := by decide

theorem witness_KeyExpandAgreesWithKeyInit :
    let s := inFlight { DesCore.reset with key := grabbe } 0x00020802
    ∃ t u, exec (.keyInit 8 0) s = .next t ∧ t.des.errCode = 0 ∧ exec (.keyExpand 8 2) s = .next u ∧ u.des.errCode = 0 ∧
      (1 : Fin 16).val < u.des.xrkn.toNat := ⟨_, _, rfl, rfl, rfl, rfl, by decide +kernel⟩

theorem witness_BlockCommandsWriteDout : (inFlight keyedG 4).des.init = true := by decide +kernel

/-- A range of one block at the end of the buffer, and an empty range just past it. -/
theorem witness_BufferCommandsTransformTheRange :
    (∀ s ∈ [inFlight (withBlock keyedG 127 5 127 1) 6, inFlight (withBlock keyedG 127 5 128 0) 6],
      s.des.init = true ∧ s.des.latch.base.toNat + s.des.latch.cnt.toNat ≤ s.cfg.bufBlocks) ∧
    ∀ j, 127 ≤ j → j < 127 + 1 → ((inFlight (withBlock keyedG 127 5 127 1) 6).des.buf.bufRead j).isSome = true := by
  refine ⟨by decide +kernel, fun j h1 h2 => ?_⟩
  obtain rfl : j = 127 := by omega
  decide +kernel

theorem witness_BufferCommandFaultsOnUnwrittenBlock :
    let s := inFlight (withBlock keyedG 126 5 126 2) 6
    s.des.init = true ∧ s.des.latch.base.toNat + s.des.latch.cnt.toNat ≤ s.cfg.bufBlocks ∧ s.des.latch.base.toNat ≤ 127 ∧
      127 < s.des.latch.base.toNat + s.des.latch.cnt.toNat ∧ s.des.buf.bufRead 127 = none := by decide +kernel

/-- A state with a key and one written block in the range. -/
def oneBlock : State := inFlight (withBlock keyedG 3 0x85E813540F0AB405 3 1) 6

/-- Exactly the bytes of block 3 are written. -/
theorem oneBlock_written (a : Nat) : (oneBlock.des.buf.read a).isSome = decide (0x8018 ≤ a ∧ a < 0x8020) := by
  show ((Memory.bufWrite [] 3 0x85E813540F0AB405).read a).isSome = _
  by_cases h : a < 0x8018 ∨ 0x8020 ≤ a
  · rw [Memory.read_bufWrite_other [] _ h]
    exact (decide_eq_false (by omega)).symm
  · obtain ⟨k, hk, rfl⟩ : ∃ k, k < 8 ∧ a = 0x8018 + k := ⟨a - 0x8018, by omega, by omega⟩
    have bytes : ∀ k < 8, ((Memory.bufWrite [] 3 0x85E813540F0AB405).read (0x8018 + k)).isSome = true := by decide +kernel
    rw [bytes k hk, decide_eq_true (by omega)]

/-- The invariant holds of a state with a key and a written block. -/
theorem oneBlock_inv : oneBlock.Inv where
  core :=
    { canonical := by decide +kernel
      inWindow := by decide +kernel
      wholeWords := fun a k ha hk => by
        rw [oneBlock_written, oneBlock_written]
        exact decide_eq_decide.mpr (by omega)
      errorRow := by decide +kernel
      inFlight := by decide +kernel
      xrknRange := by decide +kernel
      xrkRest := by decide +kernel
      initialised := fun _ => ⟨rfl, by unfold oddParity; decide +kernel⟩
      noKey := by decide +kernel }
  held := by decide +kernel

theorem witness_DecBufRestoresWhatEncBufDid :
    oneBlock.Inv ∧ oneBlock.des.init = true ∧ (nextOf (exec (.encBuf 0 0) oneBlock)).isSome = true ∧
      (nextOf (exec (.decBuf 0 0) oneBlock)).isSome = true := ⟨oneBlock_inv, by decide +kernel⟩

theorem witness_OtherCommandsStoreNothing :
    (∀ k n, Instr.roundF 0 0 ≠ .encBuf k n ∧ Instr.roundF 0 0 ≠ .decBuf k n) ∧
    ∃ t, exec (.roundF 0 0) oneBlock = .next t := ⟨fun _ _ => ⟨nofun, nofun⟩, _, rfl⟩

theorem witness_ErrorsArePrecise : ∃ t, exec (.keyInit 6 0) oneBlock = .next t ∧ t.des.errCode ≠ 0 :=
  ⟨_, rfl, by decide +kernel⟩

/-- One state for each branch of the order of checks. -/
theorem witness_FirstFailingCheckIsReported :
    ∀ s ∈ [inFlight keyedG 0, inFlight keyedG 0x80000001, inFlight DesCore.reset 3, inFlight keyedG 0x00000602,
      inFlight keyedG 0x00110802, inFlight (withBlock keyedG 0 5 128 1) 7, inFlight keyedG 0x00100802],
      s.rst = false ∧ s.des.busy = true := by decide +kernel

/-! ## Witnesses: a step -/

theorem witness_StepRunsTheDecodedCommand :
    let s := inFlight DesCore.reset 0x001F0F05
    s.cfg.masters ≤ 1 ∧ s.turn = .engine ∧ s.rst = false ∧ s.des.busy = true ∧
      decode s.des.latch.cmd = .command (.roundF 15 31) := by decide +kernel

theorem witness_StepCompletesAnIllegalWord :
    (let s := inFlight DesCore.reset 0x00000000
     s.cfg.masters ≤ 1 ∧ s.turn = .engine ∧ s.rst = false ∧ s.des.busy = true ∧
       decode s.des.latch.cmd = .illegal .reservedOp) ∧
    (let s := inFlight DesCore.reset 0x80000003
     s.cfg.masters ≤ 1 ∧ s.turn = .engine ∧ s.rst = false ∧ s.des.busy = true ∧
       decode s.des.latch.cmd = .illegal .reservedBits) := by decide +kernel

theorem witness_FetchWordRunsNext : State.reset.cfg.masters ≤ 1 ∧ decode 0x00000801 = .command (.keyInit 8 0) := by decide

theorem witness_IdleStepKeepsState :
    (State.reset.cfg.masters ≤ 1 ∧ State.reset.des.busy = false ∧ State.reset.script = [] ∧ State.reset.turn = .host) ∧
    (let s := { State.reset with schedule := [.engine] }
     s.cfg.masters ≤ 1 ∧ s.des.busy = false ∧ s.script = [] ∧ s.turn = .engine) := by decide +kernel

theorem witness_SecondMasterRefused : 2 ≤ (State.resetWith { bufBlocks := 1, coreBase := 0, masters := 2 }).cfg.masters := by
  decide

/-! ## Witnesses: the port and the status -/

theorem witness_CommandWriteIsAccepted :
    (around keyedG).rst = false ∧ (around keyedG).des.busy = false ∧ (nextOf (hostWrite 0x01C 0 (around keyedG))).isSome = true ∧
    decode 0 = .illegal .reservedOp := by decide +kernel

theorem witness_CommandWriteWhileBusyIsDropped : (inFlight keyedG 3).rst = false ∧ (inFlight keyedG 3).des.busy = true := by
  decide +kernel

/-- Each kind of bad access, at the ends of its range. -/
theorem witness_BadAccessSetsAerr :
    State.reset.rst = false ∧ (0x001#16).toNat % 4 ≠ 0 ∧ (0xFFFF#16).toNat % 4 ≠ 0 ∧
    (0x05C ≤ (0x05C#16).toNat ∧ (0x0FC#16).toNat < 0x100) ∧ (0x200 ≤ (0x200#16).toNat ∧ (0x7FFC#16).toNat < 0x8000) ∧
    0x8000 + 8 * State.reset.cfg.bufBlocks ≤ (0x8400#16).toNat := by decide

theorem witness_RegisterMapIsExact :
    Reg.Exists 4096 (.bufLo 4095) ∧ Reg.portOffset (.bufLo 4095) = 0xFFFC#16 ∧ Reg.ofOffset 4096 0xFFFC = some (.bufLo 4095) ∧
    Reg.ofOffset 1 0x8004 = some (.bufLo 0) ∧ Reg.ofOffset 1 0x1FC = some (.xrkLo 15) := by
  refine ⟨?_, ?_⟩
  · show 4095 < 4096
    decide
  · decide +kernel

/-- An idle core that has encrypted a block. -/
def idle : State := around { keyedG with dout := 0x85E813540F0AB405, done := true }

theorem witness_RegisterReadValues : idle.rst = false ∧ idle.des.busy = false := by decide +kernel

/-- The entry numbers are the sixteen of the type, 0 and 15 among them. -/
theorem witness_KeyBankReadValues : idle.rst = false ∧ idle.des.busy = false ∧ (0 : Fin 16).val = 0 ∧ (15 : Fin 16).val = 15 := by
  decide +kernel

theorem witness_StatusBitsAndWriteOneToClear : idle.rst = false ∧ idle.des.done = true := by decide +kernel

theorem witness_ReadsHaveNoSideEffect :
    portRead 0x014 (around keyedG) = some (4, keyedG) ∧ Reg.ofOffset 128 0x014 = some .status ∧
    (around keyedG).des.busy = false ∧ portRead 0x001 State.reset = some (0, { DesCore.reset with aerr := true }) := by
  decide +kernel

theorem witness_ReadOnlyWritesAreIgnored :
    State.reset.rst = false ∧
    0x058#16 ∈ [0x000#16, 0x004, 0x008, 0x00C, 0x018, 0x028, 0x02C, 0x038, 0x03C, 0x04C, 0x058] ∧
    (0x100 ≤ (0x100#16).toNat ∧ (0x100#16).toNat < 0x200 ∧ (0x100#16).toNat % 4 = 0) ∧
    (0x100 ≤ (0x1FC#16).toNat ∧ (0x1FC#16).toNat < 0x200 ∧ (0x1FC#16).toNat % 4 = 0) := by decide

/-- An idle core, with the first and the last word of the largest buffer; and a core with a command in flight. -/
theorem witness_ReadWriteRegistersReadBack :
    (let s := State.resetWith { bufBlocks := 4096, coreBase := 0, masters := 1 }
     s.rst = false ∧ s.des.busy = false ∧ s.cfg.bufBlocks ≤ 4096 ∧
      (0x8000#16).toNat % 4 = 0 ∧ 0x8000 ≤ (0x8000#16).toNat ∧ (0x8000#16).toNat < 0x8000 + 8 * s.cfg.bufBlocks ∧
      (0xFFFC#16).toNat % 4 = 0 ∧ 0x8000 ≤ (0xFFFC#16).toNat ∧ (0xFFFC#16).toNat < 0x8000 + 8 * s.cfg.bufBlocks) ∧
    (inFlight keyedG 3).rst = false ∧ (inFlight keyedG 3).des.busy = true := by decide +kernel

/-- The first word of the buffer of an idle core, the last one with another command in flight, and a block on either side of
the range of a buffer command in flight. -/
theorem witness_BufferWriteStoresOneWord :
    (State.reset.rst = false ∧ 0 < State.reset.cfg.bufBlocks ∧ (0x8000#16).toNat = 0x8000 + 8 * 0 ∧
      State.reset.des.busy = false) ∧
    (let s := inFlight keyedG 8
     s.rst = false ∧ 127 < s.cfg.bufBlocks ∧ (0x83FC#16).toNat = 0x8004 + 8 * 127 ∧
      s.des.latch.cmd &&& 0xFF#32 ≠ 6 ∧ s.des.latch.cmd &&& 0xFF#32 ≠ 7) ∧
    (let s := inFlight { keyedG with bufBase := 2, bufCnt := 2 } 6
     s.rst = false ∧ 4 < s.cfg.bufBlocks ∧ 1 < s.des.latch.base.toNat ∧
      s.des.latch.base.toNat + s.des.latch.cnt.toNat ≤ 4) := by decide +kernel

theorem witness_UnwrittenBufferReadFaults :
    State.reset.rst = false ∧ (0x83FC#16).toNat % 4 = 0 ∧ 0x8000 ≤ (0x83FC#16).toNat ∧
    (0x83FC#16).toNat < 0x8000 + 8 * State.reset.cfg.bufBlocks ∧ State.reset.des.buf.read (0x83FC#16).toNat = none := by decide

/-- The buffer with blocks 126 and 127 written and block 127 in the range, with word `w` in flight. -/
def lastBlock (w : Word) : State :=
  inFlight { keyedG with buf := (Memory.bufWrite [] 126 5).bufWrite 127 6, bufBase := 127, bufCnt := 1 } w

/-- A register that may be written and one that may not, with a command in flight, with a word that has a reserved bit set,
and with a word that has a reserved OP; and an idle core. -/
theorem witness_BusyWindowReadsAreFree :
    (∀ w, (lastBlock w).rst = false ∧ (lastBlock w).des.busy = true ∧ (lastBlock w).cfg.bufBlocks ≤ 4096 ∧
      (lastBlock w).des.readReg 128 (.bufLo 127) = some 6 ∧ (lastBlock w).des.readReg 128 (.bufLo 126) = some 5) ∧
    (Reg.Exists 128 (.bufLo 127) ∧ Reg.Exists 128 (.bufLo 126)) ∧
    (decode (lastBlock 6).des.latch.cmd = .command (.encBuf 0 0) ∧
      decode (lastBlock 0x80000006).des.latch.cmd = .illegal .reservedBits ∧
      (lastBlock 0x80000006).des.latch.cmd &&& 0xFF#32 = BitVec.ofNat 32 (Instr.encBuf 0 0).opcode ∧
      decode (lastBlock 9).des.latch.cmd = .illegal .reservedOp) ∧
    (∀ w, MayWrite (lastBlock w).des.latch (.bufLo 127) (.encBuf 0 0) ∧
      ¬ MayWrite (lastBlock w).des.latch (.bufLo 126) (.encBuf 0 0)) ∧
    (idle.rst = false ∧ idle.des.busy = false ∧ idle.des.readReg 128 .hout = some 0) := by
  have words : ((Memory.bufWrite [] 126 5).bufWrite 127 6).readWord (bufLoAt 127) = some 6 ∧
      ((Memory.bufWrite [] 126 5).bufWrite 127 6).readWord (bufLoAt 126) = some 5 := by decide +kernel
  refine ⟨fun w => ⟨rfl, rfl, show 128 ≤ 4096 by decide, words⟩, ⟨show 127 < 128 by decide, show 126 < 128 by decide⟩, by decide +kernel,
    fun _ => ⟨⟨127, .inr rfl, show 127 ≤ 127 by decide, show 127 < 127 + 1 by decide⟩, ?_⟩, by decide +kernel⟩
  rintro ⟨j, hj | hj, h, _⟩ <;> cases hj
  exact absurd (show 127 ≤ 126 from h) (by decide)

/-- The table of R281: a register of each row that has a fixed one. -/
theorem witness_MayWrite_rows :
    MayWrite Latch.reset (.rkLo 15) (.keyInit 8 0) ∧ MayWrite Latch.reset .xrkn (.keyExpand 8 0) ∧
    MayWrite Latch.reset .dout1 (.encBlock 0 0) ∧ MayWrite Latch.reset .dout0 (.decBlock 0 0) ∧
    MayWrite Latch.reset .hout (.roundF 0 0) ∧ MayWrite Latch.reset .rkin1 (.zeroize 0 0) := by
  refine ⟨.inr (.inr ⟨15, .inr rfl⟩), .inl rfl, .inr rfl, .inl rfl, rfl, .inl ?_⟩
  simp

/-- Inside the range at both ends, and outside it on both sides. -/
theorem witness_WriteIntoTheRangeInFlightFaults :
    let s := inFlight { keyedG with bufBase := 2, bufCnt := 2 } 7
    s.rst = false ∧ s.des.busy = true ∧ s.des.latch.cmd &&& 0xFF#32 = 7 ∧ 4 < s.cfg.bufBlocks ∧
      (s.des.latch.base.toNat ≤ 2 ∧ 3 < s.des.latch.base.toNat + s.des.latch.cnt.toNat) ∧
      1 < s.des.latch.base.toNat ∧ s.des.latch.base.toNat + s.des.latch.cnt.toNat ≤ 4 ∧
      (0x8014#16).toNat = 0x8004 + 8 * 2 ∧ (0x8020#16).toNat = 0x8000 + 8 * 4 := by decide +kernel

theorem witness_OperandWritesMissTheCommandInFlight :
    let s := inFlight { keyedG with din := 0x0123456789ABCDEF } 3
    s.rst = false ∧ s.des.busy = true ∧ (nextOf (hostWrite 0x034 7 s)).isSome = true ∧
      (nextOf (exec (.encBlock 0 0) s)).isSome = true ∧ (nextOf (exec (.zeroize 0 0) s)).isSome = true := by decide +kernel

theorem witness_IrqFollowsDoneAndEnable :
    let s := inFlight { DesCore.reset with ctrlIe := true } 5
    s.rst = false ∧ s.des.busy = true ∧ (nextOf (engineTurn s)).isSome = true ∧ (around keyedG).des.busy = false ∧
      (nextOf (hostWrite 0x01C 2 (around keyedG))).isSome = true ∧ (2#32).getLsbD 1 = true ∧
      (nextOf (hostWrite 0x014 2 s)).isSome = true ∧ (nextOf (hostWrite 0x010 1 s)).isSome = true := by decide +kernel

theorem witness_ScriptOperationsTakeTheirAccess :
    (∃ t, hostRead 0x014 (around keyedG) = .value 4 t) ∧
    { around keyedG with script := rdReg .status }.script = .rd 0x014 :: [] ∧
    { around keyedG with script := wrReg .status 2 }.script = .wr 0x014 2 :: [] ∧
    { around keyedG with script := waitOp }.script = .poll 0x014 1 0 :: [] ∧
    hostRead 0x8000 (around keyedG) = .stop .unwrittenBuffer ∧
    { around keyedG with script := wrReg (.bufHi 0) 7 }.script = .wr 0x8000 7 :: [] ∧
    (around keyedG).script = [] ∧ (around keyedG).cfg.masters ≤ 1 ∧ (around keyedG).turn = .host :=
  ⟨⟨_, rfl⟩, rfl, rfl, rfl, rfl, rfl, rfl, by decide, rfl⟩

/-! ## Witnesses: reset and the whole machine -/

theorem witness_ResetValues :
    Config.suggested.bufBlocks ≤ 4096 ∧
    (0x010 ≤ (0x010#16).toNat ∧ (0x058#16).toNat < 0x05C ∧ 0x100 ≤ (0x100#16).toNat ∧ (0x1FC#16).toNat < 0x200) ∧
    (0x8000 ≤ (0x8000#16).toNat ∧ (0x83FC#16).toNat < 0x8000 + 8 * Config.suggested.bufBlocks) ∧
    (0x058#16).toNat % 4 = 0 ∧ (0x1FC#16).toNat % 4 = 0 ∧ (0x8000#16).toNat % 4 = 0 ∧ (0x83FC#16).toNat % 4 = 0 := by decide

theorem witness_AssertedResetHoldsTheCore :
    (let s := { inFlight keyedG 3 with schedule := [.rstAssert] }
     s.cfg.masters ≤ 1 ∧ s.turn = .rstAssert) ∧
    (let s := { around DesCore.reset with rst := true, schedule := [.rstRelease] }
     s.cfg.masters ≤ 1 ∧ s.turn = .rstRelease) ∧
    { inFlight keyedG 3 with rst := true }.rst = true ∧
    ((nextOf (step (inFlight keyedG 3))).any (fun t => t.des != (inFlight keyedG 3).des)) = true := by decide +kernel

theorem witness_OnlyKeyCommandsChangeTheBanks :
    ((nextOf (step (inFlight { DesCore.reset with key := grabbe } 0x00000801))).any (fun t => t.des.rk != zeroBank)) = true ∧
    ((nextOf (step (inFlight { DesCore.reset with key := grabbe } 0x00000802))).any (fun t => t.des.xrkn != 0)) = true := by
  decide +kernel

theorem witness_StepKeepsTheInvariant : oneBlock.Inv ∧ (nextOf (step oneBlock)).isSome = true :=
  ⟨oneBlock_inv, by decide +kernel⟩

theorem witness_CommandInFlightCompletes :
    let s := { oneBlock with schedule := [.host, .host, .engine] }
    s.cfg.masters ≤ 1 ∧ s.rst = false ∧ s.des.busy = true ∧ ∀ t ∈ s.schedule, t = .host ∨ t = .engine := by decide +kernel

theorem witness_IdleLatchIsNeverRead :
    (around keyedG).des.busy = false ∧ (∃ t, step { around keyedG with script := cmdOp 3 } = .next t ∧ t.des.busy = true) ∧
    step { around keyedG with script := [.rd 0x8000] } = .fault .unwrittenBuffer :=
  ⟨by decide +kernel, ⟨_, rfl, by decide +kernel⟩, rfl⟩

/-- Two machines with different keys, and a run of one step that reads KEY0. -/
theorem witness_ZeroizeLeavesNothingToRead :
    let s := { inFlight { keyedG with key := 1 } 8 with script := [.rd 0x020] }
    let s' := { s with des := { s.des with key := 2, dout := 3 } }
    (s' = { s with des := { s.des with
      key := s'.des.key, knorm := s'.des.knorm, din := s'.des.din, dout := s'.des.dout, hin := s'.des.hin
      rkin := s'.des.rkin, hout := s'.des.hout, rk := s'.des.rk, xrk := s'.des.xrk, xrkn := s'.des.xrkn
      init := s'.des.init, latch := s'.des.latch } }) ∧
    s ≠ s' ∧ ∃ t t' u, exec (.zeroize 0 0) s = .next t ∧ exec (.zeroize 0 0) s' = .next t' ∧
      Sys2Proof.core.run 1 t = .next u := by
  refine ⟨rfl, by decide +kernel, _, _, _, rfl, rfl, rfl⟩

end Sys2Proof.Tests
end

section
/-! PROOFS. The rules that proofs about the machine's state cite: the port's accesses, the register map, the halves of the
quantities a register shows, one turn of each agent. -/

namespace Sys2Proof.Machine

/-! ### The port: one rule for each way an access ends -/

/-- With no command in flight no read is free (R281). -/
theorem DesCore.unspecified_idle {d : DesCore} (h : d.busy = false) (r : Reg) : d.unspecified r = false := by
  simp [DesCore.unspecified, h]

/-- With no command in flight no write is a hazard (R282). -/
theorem DesCore.writeHazard_idle {d : DesCore} (h : d.busy = false) (r : Reg) : d.writeHazard r = false := by
  cases r <;> simp [DesCore.writeHazard, DesCore.unspecified_idle h]

/-- The effect of a read while `rst` is asserted (R270). -/
theorem hostRead_inReset {s : State} (off : Offset) (hr : s.rst = true) : hostRead off s = .value 0 s := by
  simp [hostRead, hr]

/-- The effect of a read of an offset that names no register (R83). -/
theorem hostRead_unmapped {s : State} {off : Offset} (hr : s.rst = false)
    (ho : Reg.ofOffset s.cfg.bufBlocks off = none) :
    hostRead off s = .value 0 { s with des := s.des.badAccess } := by
  simp [hostRead, hr, ho]

/-- A register whose value is specified reads as that value, and the read changes nothing (R84). -/
theorem hostRead_exact {s : State} {off : Offset} {r : Reg} {v : Word} (hr : s.rst = false)
    (ho : Reg.ofOffset s.cfg.bufBlocks off = some r) (hv : s.des.readReg s.cfg.bufBlocks r = some v)
    (hu : s.des.unspecified r = false) : hostRead off s = .value v s := by
  simp [hostRead, hr, ho, hv, hu]

/-- A register with no value gives the fault of R75. -/
theorem hostRead_unwritten {s : State} {off : Offset} {r : Reg} (hr : s.rst = false)
    (ho : Reg.ofOffset s.cfg.bufBlocks off = some r) (hv : s.des.readReg s.cfg.bufBlocks r = none) :
    hostRead off s = .stop .unwrittenBuffer := by
  simp [hostRead, hr, ho, hv]

/-- The effect of a write while `rst` is asserted (R270). -/
theorem hostWrite_inReset {s : State} (off : Offset) (v : Word) (hr : s.rst = true) : hostWrite off v s = .next s := by
  simp [hostWrite, hr]

/-- The effect of a write at an offset that names no register (R83). -/
theorem hostWrite_unmapped {s : State} {off : Offset} (v : Word) (hr : s.rst = false)
    (ho : Reg.ofOffset s.cfg.bufBlocks off = none) :
    hostWrite off v s = .next { s with des := s.des.badAccess } := by
  simp [hostWrite, hr, ho]

/-- A write that is no hazard does what its register says. -/
theorem hostWrite_mapped {s : State} {off : Offset} {r : Reg} (v : Word) (hr : s.rst = false)
    (ho : Reg.ofOffset s.cfg.bufBlocks off = some r) (hz : s.des.writeHazard r = false) :
    hostWrite off v s = .next { s with des := s.des.writeReg r v } := by
  simp [hostWrite, hr, ho, hz]

/-- A write that leaves the core idle, and the read of the same register after it. -/
theorem hostWrite_then_hostRead {s : State} {off : Offset} {r : Reg} {v x : Word} (hr : s.rst = false)
    (hb : s.des.busy = false) (ho : Reg.ofOffset s.cfg.bufBlocks off = some r)
    (hb' : (s.des.writeReg r v).busy = false) (hx : (s.des.writeReg r v).readReg s.cfg.bufBlocks r = some x) :
    ∃ t, hostWrite off v s = .next t ∧ hostRead off t = .value x t :=
  ⟨_, hostWrite_mapped v hr ho (DesCore.writeHazard_idle hb r),
    hostRead_exact (s := { s with des := s.des.writeReg r v }) hr ho hx (DesCore.unspecified_idle hb' r)⟩

/-- A HostWrite is never refused. -/
theorem hostWrite_next_or_fault (off : Offset) (v : Word) (s : State) :
    (∃ t, hostWrite off v s = .next t) ∨ ∃ f, hostWrite off v s = .fault f := by
  rcases hostWrite_cases off v s with ⟨-, q⟩ | ⟨-, -, q⟩ | ⟨r, -, -, -, q⟩ | ⟨r, -, -, -, q⟩
  · exact .inl ⟨_, q⟩
  · exact .inl ⟨_, q⟩
  · exact .inr ⟨_, q⟩
  · exact .inl ⟨_, q⟩

/-! ### The register map: the banks and the block buffer -/

/-- The halves of entry `i` of each bank at their offsets (R60, R61). -/
theorem ofOffset_banks (n : Nat) (i : Fin 16) :
    Reg.ofOffset n (BitVec.ofNat 16 (0x100 + 8 * i.val)) = some (.rkHi i) ∧
    Reg.ofOffset n (BitVec.ofNat 16 (0x104 + 8 * i.val)) = some (.rkLo i) ∧
    Reg.ofOffset n (BitVec.ofNat 16 (0x180 + 8 * i.val)) = some (.xrkHi i) ∧
    Reg.ofOffset n (BitVec.ofNat 16 (0x184 + 8 * i.val)) = some (.xrkLo i) := by
  have hoff : ∀ b, b ≤ 0x184 → (BitVec.ofNat 16 (b + 8 * i.val)).toNat = b + 8 * i.val := fun b hb => by simp; omega
  have hidx : ∀ b c, c ≤ b → b < c + 8 → Fin.ofNat 16 ((b + 8 * i.val - c) / 8) = i := fun b c _ _ => by
    rw [show (b + 8 * i.val - c) / 8 = i.val by omega, Fin.ofNat_val_eq_self]
  refine ⟨?_, ?_, ?_, ?_⟩ <;> simp (disch := omega) only [Reg.ofOffset, hoff, hidx, if_neg, if_pos]

/-- An aligned offset of the banks is that of one half of one entry. -/
theorem bank_offset_cases (off : Offset) (h4 : off.toNat % 4 = 0) (h1 : 0x100 ≤ off.toNat) (h2 : off.toNat < 0x200) :
    ∃ i : Fin 16, off = BitVec.ofNat 16 (0x100 + 8 * i.val) ∨ off = BitVec.ofNat 16 (0x104 + 8 * i.val) ∨
      off = BitVec.ofNat 16 (0x180 + 8 * i.val) ∨ off = BitVec.ofNat 16 (0x184 + 8 * i.val) := by
  refine ⟨⟨(off.toNat - 0x100) / 8 % 16, by omega⟩, ?_⟩
  simp only [← BitVec.toNat_inj, BitVec.toNat_ofNat]
  omega

/-- A BUF register is the word of memory at its offset: its read and its write (R81, R85). -/
theorem ofOffset_buf_word {n : Nat} {off : Offset} (h4 : off.toNat % 4 = 0) (h1 : 0x8000 ≤ off.toNat)
    (h2 : off.toNat < 0x8000 + 8 * n) :
    ∃ r, Reg.ofOffset n off = some r ∧ ∀ d : DesCore, d.readReg n r = d.buf.readWord off.toNat ∧
      ∀ v, d.writeReg r v = { d with buf := d.buf.writeWord off.toNat v } := by
  obtain ⟨j, -, ⟨ho, ha⟩ | ⟨ho, ha⟩⟩ := ofOffset_buf n off h4 h1 h2
  · exact ⟨.bufHi j, ho, fun d => by rw [ha]; exact ⟨rfl, fun v => rfl⟩⟩
  · exact ⟨.bufLo j, ho, fun d => by rw [ha]; exact ⟨rfl, fun v => rfl⟩⟩

/-- A word whose first byte was not written since reset has no value (R75). -/
theorem Memory.readWord_of_unwritten {m : Memory} {a : Nat} (h : m.read a = none) : m.readWord a = none := by
  simp [Memory.readWord, h]

/-- A read of a BUF word whose first byte was not written since reset is the fault of R75. -/
theorem hostRead_buf_unwritten {s : State} {off : Offset} (hr : s.rst = false) (h4 : off.toNat % 4 = 0)
    (h1 : 0x8000 ≤ off.toNat) (h2 : off.toNat < 0x8000 + 8 * s.cfg.bufBlocks) (hm : s.des.buf.read off.toNat = none) :
    hostRead off s = .stop .unwrittenBuffer := by
  obtain ⟨r, ho, hreg⟩ := ofOffset_buf_word h4 h1 h2
  exact hostRead_unwritten hr ho ((hreg s.des).1.trans (Memory.readWord_of_unwritten hm))

/-! ### What a register shows of what was written to it (R81) -/

@[simp] theorem hi64_setHi64 (x : Block) (v : Word) : hi64 (setHi64 x v) = v := hi64_append v _

@[simp] theorem lo64_setLo64 (x : Block) (v : Word) : lo64 (setLo64 x v) = v := lo64_append _ v

@[simp] theorem hi48_setHi48 (k : RoundKey) (v : Word) : hi48 (setHi48 k v) = v := extract_append_left v _

/-- The second word of a round key keeps the written bits [31:16] (R46). -/
theorem lo48_setLo48 (k : RoundKey) (v : Word) : lo48 (setLo48 k v) = v &&& 0xFFFF0000#32 := by
  have hlow : ∀ i < 16, (0xFFFF0000#32).getLsbD i = false := by decide
  have hhigh : ∀ i < 32, 16 ≤ i → (0xFFFF0000#32).getLsbD i = true := by decide
  have hv : (setLo48 k v).extractLsb' 0 16 = v.extractLsb' 16 16 := extract_append_right _ _
  apply BitVec.eq_of_getLsbD_eq
  intro i hi
  rw [lo48, hv, BitVec.getLsbD_append, BitVec.getLsbD_and]
  by_cases h : i < 16
  · simp [h, hlow i h]
  · simp [h, hhigh i hi (by omega), show i - 16 < 16 by omega, show 16 + (i - 16) = i by omega]

/-- A halfword register keeps the written bits [15:0] (R48). -/
theorem word16_low (v : Word) : word16 (v.extractLsb' 0 16) = v &&& 0x0000FFFF#32 := by
  have h : v.toNat &&& 0xFFFF = v.toNat % 2 ^ 16 := Nat.and_two_pow_sub_one_eq_mod v.toNat 16
  apply BitVec.eq_of_toNat_eq
  simp [word16, h]
  omega

/-- CTRL keeps the written bit 0 (R37). -/
theorem ctrlWord_low (v : Word) : 0#31 ++ BitVec.ofBool (v.getLsbD 0) = v &&& 1#32 := by
  have hone : ∀ i < 32, (1#32).getLsbD i = decide (i = 0) := by decide
  apply BitVec.eq_of_getLsbD_eq
  intro i hi
  rw [BitVec.getLsbD_append, BitVec.getLsbD_and, hone i hi]
  cases i with
  | zero => simp
  | succ i => simp

/-- A register that shows the written word shows it under the mask of a whole word. -/
theorem some_eq_wholeWord {x v : Word} (h : x = v) : some x = some (v &&& 0xFFFFFFFF#32) := by
  rw [h, show v &&& 0xFFFFFFFF#32 = v from BitVec.and_allOnes]

/-- Each operand register at its offset: a write of it is no hazard, leaves BUSY, and reads back the implemented bits
(R41, R43, R45, R46, R48). -/
theorem operandRegister_readsBack {off : Offset} {mask : Word} (n : Nat)
    (h : (off, mask) ∈ [(0x020#16, 0xFFFFFFFF#32), (0x024#16, 0xFFFFFFFF#32), (0x030#16, 0xFFFFFFFF#32),
      (0x034#16, 0xFFFFFFFF#32), (0x040#16, 0xFFFFFFFF#32), (0x044#16, 0xFFFFFFFF#32), (0x048#16, 0xFFFF0000#32),
      (0x050#16, 0x0000FFFF#32), (0x054#16, 0x0000FFFF#32)]) :
    ∃ r, Reg.ofOffset n off = some r ∧ ∀ (d : DesCore) (v : Word), d.writeHazard r = false ∧
      (d.writeReg r v).busy = d.busy ∧ (d.writeReg r v).readReg n r = some (v &&& mask) := by
  simp only [List.mem_cons, List.not_mem_nil, or_false, Prod.mk.injEq] at h
  rcases h with ⟨rfl, rfl⟩ | ⟨rfl, rfl⟩ | ⟨rfl, rfl⟩ | ⟨rfl, rfl⟩ | ⟨rfl, rfl⟩ | ⟨rfl, rfl⟩ | ⟨rfl, rfl⟩ | ⟨rfl, rfl⟩ |
    ⟨rfl, rfl⟩
  · exact ⟨.key0, rfl, fun d v => ⟨rfl, rfl, some_eq_wholeWord (hi64_setHi64 d.key v)⟩⟩
  · exact ⟨.key1, rfl, fun d v => ⟨rfl, rfl, some_eq_wholeWord (lo64_setLo64 d.key v)⟩⟩
  · exact ⟨.din0, rfl, fun d v => ⟨rfl, rfl, some_eq_wholeWord (hi64_setHi64 d.din v)⟩⟩
  · exact ⟨.din1, rfl, fun d v => ⟨rfl, rfl, some_eq_wholeWord (lo64_setLo64 d.din v)⟩⟩
  · exact ⟨.hin, rfl, fun _ v => ⟨rfl, rfl, some_eq_wholeWord rfl⟩⟩
  · exact ⟨.rkin0, rfl, fun d v => ⟨rfl, rfl, some_eq_wholeWord (hi48_setHi48 d.rkin v)⟩⟩
  · exact ⟨.rkin1, rfl, fun d v => ⟨rfl, rfl, congrArg some (lo48_setLo48 d.rkin v)⟩⟩
  · exact ⟨.bufBase, rfl, fun _ v => ⟨rfl, rfl, congrArg some (word16_low v)⟩⟩
  · exact ⟨.bufCnt, rfl, fun _ v => ⟨rfl, rfl, congrArg some (word16_low v)⟩⟩

/-- The bits of STATUS, from bit 0 up (R38). -/
theorem DesCore.statusWord_getLsbD (d : DesCore) (n : Nat) :
    d.statusWord.getLsbD n = [d.busy, d.done, d.init, d.err, d.ovr, d.aerr].getD n false := by
  show BitVec.getLsbD (w := 26 + 1 + 1 + 1 + 1 + 1 + 1)
    (0#26 ++ BitVec.ofBool d.aerr ++ BitVec.ofBool d.ovr ++ BitVec.ofBool d.err ++ BitVec.ofBool d.init ++
      BitVec.ofBool d.done ++ BitVec.ofBool d.busy) n = _
  simp only [BitVec.getLsbD_append]
  match n with
  | 0 | 1 | 2 | 3 | 4 | 5 => simp
  | n + 6 => simp

/-! ### What a register reads after reset (R75) -/

/-- The register shows a component that reset clears: every one but ID, CAP0 to CAP2 and BUF. -/
def Reg.clearedAtReset : Reg → Bool
  | .id | .cap0 | .cap1 | .cap2 | .bufHi _ | .bufLo _ => false
  | _ => true

/-- The registers that reset clears read 0 after it. -/
theorem readReg_reset (n : Nat) {r : Reg} (h : r.clearedAtReset = true) : DesCore.reset.readReg n r = some 0 := by
  cases r with
  | id | cap0 | cap1 | cap2 | bufHi j | bufLo j => exact absurd h (by simp [Reg.clearedAtReset])
  | rkHi i | xrkHi i => exact congrArg (fun k => some (hi48 k)) (zeroBank_get i)
  | rkLo i | xrkLo i => exact congrArg (fun k => some (lo48 k)) (zeroBank_get i)
  | _ => rfl

/-- The registers from 0x010 up, below the banks, are cleared by reset. -/
theorem ofLowOffset_clearedAtReset :
    ∀ o < 0x05C, 0x010 ≤ o → o % 4 = 0 → (Reg.ofLowOffset o).any Reg.clearedAtReset = true := by decide

/-- Every mapped offset from 0x010 up, below BUF, names a register that reset clears. -/
theorem ofOffset_clearedAtReset (n : Nat) {off : Offset} (h4 : off.toNat % 4 = 0)
    (h : 0x010 ≤ off.toNat ∧ off.toNat < 0x05C ∨ 0x100 ≤ off.toNat ∧ off.toNat < 0x200) :
    ∃ r, Reg.ofOffset n off = some r ∧ r.clearedAtReset = true := by
  rcases h with ⟨h1, h2⟩ | ⟨h1, h2⟩
  · rw [ofOffset_low n off h4 (by omega)]
    exact (Option.any_eq_true _ _).mp (ofLowOffset_clearedAtReset _ h2 h1 h4)
  · obtain ⟨i, hi⟩ := bank_offset_cases off h4 h1 h2
    obtain ⟨hrkHi, hrkLo, hxrkHi, hxrkLo⟩ := ofOffset_banks n i
    rcases hi with rfl | rfl | rfl | rfl
    · exact ⟨_, hrkHi, rfl⟩
    · exact ⟨_, hrkLo, rfl⟩
    · exact ⟨_, hxrkHi, rfl⟩
    · exact ⟨_, hxrkLo, rfl⟩

/-! ### One turn of each agent -/

/-- In a system with one master the engine's turn is the engine's step. -/
theorem step_engine {s : State} (hm : s.cfg.masters ≤ 1) (ht : s.turn = .engine) : step s = engineTurn s.popTurn := by
  simp [step, ht, Nat.not_lt.mpr hm]

/-- In a system with one master the host's turn is the next operation of its script. -/
theorem step_host {s : State} (hm : s.cfg.masters ≤ 1) (ht : s.turn = .host) : step s = hostTurn s.popTurn := by
  simp [step, ht, Nat.not_lt.mpr hm]

/-- With no command in flight the engine does nothing. -/
theorem engineTurn_idle {s : State} (hb : s.des.busy = false) : engineTurn s = .next s := by
  simp [engineTurn, hb]

/-- With a command in flight the engine runs what the latched word decodes to (R72, R114). -/
theorem engineTurn_command {s : State} {i : Instr} (hr : s.rst = false) (hb : s.des.busy = true)
    (hd : decode s.des.latch.cmd = .command i) : engineTurn s = exec i s := by
  simp [engineTurn, hr, hb, hd]

/-- With a word in flight that is no command the engine raises its error (R114). -/
theorem engineTurn_illegal {s : State} {why : Illegal} (hr : s.rst = false) (hb : s.des.busy = true)
    (hd : decode s.des.latch.cmd = .illegal why) : engineTurn s = s.raise (CmdError.ofIllegal why) := by
  simp [engineTurn, hr, hb, hd]

/-- The engine at its turn runs the command in flight. -/
theorem step_engine_command {s : State} {i : Instr} (hm : s.cfg.masters ≤ 1) (ht : s.turn = .engine)
    (hr : s.rst = false) (hb : s.des.busy = true) (hd : decode s.des.latch.cmd = .command i) :
    step s = exec i s.popTurn :=
  (step_engine hm ht).trans (engineTurn_command hr hb hd)

/-- The error of a word that is no command is InvalidArgument (R241). -/
theorem CmdError.ofIllegal_code (why : Illegal) : (CmdError.ofIllegal why).code = 1 := by cases why <;> rfl

/-- All 32 bits of a word make that word again. -/
theorem tableWord_toNat (w : Word) : tableWord 32 w.toNat = w :=
  BitVec.eq_of_toNat_eq (by simp [tableWord]; omega)

/-- Out of reset the engine's turn leaves BUSY clear, unless a buffer command meets an unwritten block (R72, R240). -/
theorem engineTurn_completes {s : State} (hr : s.rst = false) :
    (∃ t, engineTurn s = .next t ∧ t.des.busy = false) ∨ engineTurn s = .fault .unwrittenBuffer := by
  rcases engineTurn_cases s with ⟨h | h, q⟩ | ⟨i, -, -, -, q⟩ | ⟨why, -, -, -, q⟩
  · exact absurd (h.symm.trans hr) (by decide)
  · exact .inl ⟨s, q, h⟩
  · rcases exec_cases i s with ⟨e, q'⟩ | ⟨q', -⟩ | ⟨d, -, q'⟩
    · exact .inl ⟨_, q.trans q', rfl⟩
    · exact .inr (q.trans q')
    · exact .inl ⟨_, q.trans q', rfl⟩
  · exact .inl ⟨_, q, rfl⟩

/-- The host's turn is never refused. -/
theorem hostTurn_next_or_fault (s : State) : (∃ t, hostTurn s = .next t) ∨ ∃ f, hostTurn s = .fault f := by
  unfold hostTurn
  split
  · exact .inl ⟨s, rfl⟩
  · split
    · exact .inl ⟨_, rfl⟩
    · exact .inr ⟨_, rfl⟩
  · exact hostWrite_next_or_fault _ _ _
  · split
    · exact .inl ⟨_, rfl⟩
    · exact .inr ⟨_, rfl⟩

/-- A register write ends no command in flight: a command presented then is dropped (R113). -/
theorem DesCore.writeReg_busy {d : DesCore} (h : d.busy = true) (r : Reg) (v : Word) : (d.writeReg r v).busy = true := by
  cases r with
  | cmd => simp [DesCore.writeReg, DesCore.presentCommand, h]
  | _ => exact h

/-- The host's turn leaves a command in flight in flight. -/
theorem hostTurn_keeps_busy {s t : State} (hb : s.des.busy = true) (h : hostTurn s = .next t) : t.des.busy = true := by
  obtain ⟨hd | ⟨-, hd⟩ | ⟨off, v, r, -, -, -, hd⟩, -⟩ := hostTurn_next h <;> rw [hd]
  · exact hb
  · exact hb
  · exact DesCore.writeReg_busy hb r v

end Sys2Proof.Machine
end

section
/-! PROOFS. The obligations on the registers, on acceptance, on the commands of the latch and on reset
(`spec/10_state.md`). -/

namespace Sys2Proof.Machine

/-! ### Registers -/

/-- The bits of CAP1 (R35). -/
theorem cap1_getLsbD_iff (n : Nat) : (0x00000180#32).getLsbD n = true ↔ n = 7 ∨ n = 8 := by
  by_cases h : n < 32
  · have hbits : ∀ m < 32, (0x00000180#32).getLsbD m = true ↔ m = 7 ∨ m = 8 := by decide
    exact hbits n h
  · rw [BitVec.getLsbD_of_ge _ n (by omega)]
    simp
    omega

/-- Settles O41: CAP1 is a constant that no write reaches, and the queries read its bits. -/
theorem keySizeQueries : Obligations.KeySizeQueries := by
  unfold Obligations.KeySizeQueries
  refine ⟨fun s v hr => ⟨hostRead_exact (r := .cap1) hr rfl rfl ?_, hostWrite_mapped (r := .cap1) v hr rfl rfl⟩,
    cap1_getLsbD_iff, fun n => ?_, by decide⟩
  · simp [DesCore.unspecified, DesCore.mayWrite]
  · rw [validKeySize, Bool.and_eq_true, decide_eq_true_eq, show cap1Word = 0x00000180#32 from rfl, cap1_getLsbD_iff]
    omega

/-- Settles O45: each write is the register's own row of `writeReg`, and the read after it shows the implemented bits. -/
theorem readWriteRegistersReadBack : Obligations.ReadWriteRegistersReadBack := by
  unfold Obligations.ReadWriteRegistersReadBack
  refine ⟨fun s v hr => ?_, fun s off mask v hr hb _ h => ?_⟩
  · have hw : ∀ (off : Offset) (r : Reg), Reg.ofOffset s.cfg.bufBlocks off = some r → s.des.writeHazard r = false →
        hostWrite off v s = .next { s with des := s.des.writeReg r v } := fun _ _ => hostWrite_mapped v hr
    exact ⟨hw _ .ctrl rfl rfl, hw _ .key0 rfl rfl, hw _ .key1 rfl rfl, hw _ .din0 rfl rfl, hw _ .din1 rfl rfl,
      hw _ .hin rfl rfl, hw _ .rkin0 rfl rfl, hw _ .rkin1 rfl rfl, hw _ .bufBase rfl rfl, hw _ .bufCnt rfl rfl,
      _, hw _ .ctrl rfl rfl, hostRead_exact (r := .ctrl) hr rfl (congrArg some (ctrlWord_low v)) (Bool.and_false _)⟩
  · rcases h with h | ⟨rfl, h4, h1, h2⟩
    · obtain ⟨r, ho, hreg⟩ := operandRegister_readsBack s.cfg.bufBlocks h
      obtain ⟨-, hbusy, hread⟩ := hreg s.des v
      exact hostWrite_then_hostRead hr hb ho (hbusy.trans hb) hread
    · obtain ⟨r, ho, hreg⟩ := ofOffset_buf_word h4 h1 h2
      have hwrite : s.des.writeReg r v = { s.des with buf := s.des.buf.writeWord off.toNat v } := (hreg s.des).2 v
      refine hostWrite_then_hostRead hr hb ho (by rw [hwrite]; exact hb) ?_
      rw [(hreg _).1, hwrite]
      exact (Memory.readWord_writeWord_same s.des.buf off.toNat v).trans (some_eq_wholeWord rfl)

/-- Settles O40: the register map sends the four offsets to the halves of the entry, and an idle core reads exactly. -/
theorem keyBankReadValues : Obligations.KeyBankReadValues := by
  unfold Obligations.KeyBankReadValues
  intro s i hr hb
  obtain ⟨hrkHi, hrkLo, hxrkHi, hxrkLo⟩ := ofOffset_banks s.cfg.bufBlocks i
  exact ⟨hostRead_exact hr hrkHi rfl (DesCore.unspecified_idle hb _),
    hostRead_exact hr hrkLo rfl (DesCore.unspecified_idle hb _),
    hostRead_exact hr hxrkHi rfl (DesCore.unspecified_idle hb _),
    hostRead_exact hr hxrkLo rfl (DesCore.unspecified_idle hb _)⟩

/-- Settles O42: STATUS reads exactly in every state, its bits are those of `statusWord`, and its write is `writeStatus`. -/
theorem statusBitsAndWriteOneToClear : Obligations.StatusBitsAndWriteOneToClear := by
  unfold Obligations.StatusBitsAndWriteOneToClear
  intro s v hr
  have hbit := s.des.statusWord_getLsbD
  refine ⟨⟨s.des.statusWord, hostRead_exact (r := .status) hr rfl rfl (Bool.and_false _), hbit 0, hbit 1, hbit 2, hbit 3,
    hbit 4, hbit 5, fun n hn => ?_⟩, hostWrite_mapped (r := .status) v hr rfl rfl⟩
  obtain ⟨m, rfl⟩ := Nat.exists_eq_add_of_le' hn
  exact hbit (m + 6)

/-- Settles O47: the offset is that of a word of the buffer, and the word has no value. -/
theorem unwrittenBufferReadFaults : Obligations.UnwrittenBufferReadFaults := by
  unfold Obligations.UnwrittenBufferReadFaults
  exact fun _ _ => hostRead_buf_unwritten

/-! ### Acceptance and the step that runs the latched word -/

/-- Settles O35: the write is an acceptance, and the engine raises InvalidArgument for an accepted word that is no
command. -/
theorem commandWriteIsAccepted : Obligations.CommandWriteIsAccepted := by
  unfold Obligations.CommandWriteIsAccepted
  intro s w hr hb
  have hw : hostWrite 0x01C w s = .next { s with des := s.des.accept w } := by
    rw [hostWrite_mapped (r := .cmd) w hr rfl rfl, DesCore.writeReg, DesCore.presentCommand, hb]
    rfl
  refine ⟨hw, fun t why ht hd => ?_⟩
  rw [hw] at ht
  injection ht with ht
  subst ht
  exact ⟨_, engineTurn_illegal hr rfl hd, rfl, CmdError.ofIllegal_code why⟩

/-- Settles O30: the engine's turn is the step, and what it runs is the decoded command. -/
theorem stepRunsTheDecodedCommand : Obligations.StepRunsTheDecodedCommand := by
  unfold Obligations.StepRunsTheDecodedCommand
  exact fun _ _ => step_engine_command

/-- Settles O32: the placed word is in flight and the engine is to move. -/
theorem fetchWordRunsNext : Obligations.FetchWordRunsNext := by
  unfold Obligations.FetchWordRunsNext
  intro s w i hm hd
  have hpop : (s.withFetchWord 32 w.toNat).popTurn = { s with des := s.des.accept w, rst := false } := by
    rw [State.withFetchWord, tableWord_toNat]
    rfl
  rw [← hpop]
  refine step_engine_command hm rfl rfl rfl ?_
  rw [State.withFetchWord_des, tableWord_toNat]
  exact hd

/-! ### Commands -/

/-- Settles O17: of the two ways KEY_INIT ends, a supported key length takes the first. -/
theorem keyInitLoadsTheSchedule : Obligations.KeyInitLoadsTheSchedule := by
  unfold Obligations.KeyInitLoadsTheSchedule
  intro klen nrk s hk
  rcases execKeyInit_cases klen s with ⟨-, h⟩ | ⟨hk', -⟩
  · exact h
  · exact absurd hk hk'

/-- A buffer command over a range in the buffer with an unwritten block is the fault of R75 and R88. -/
theorem cryptBuffer_unwritten (dir : Direction) {s : State} {j : Nat} (hi : s.des.init = true)
    (hr : s.des.latch.base.toNat + s.des.latch.cnt.toNat ≤ s.cfg.bufBlocks) (h1 : s.des.latch.base.toNat ≤ j)
    (h2 : j < s.des.latch.base.toNat + s.des.latch.cnt.toNat) (hj : s.des.buf.bufRead j = none) :
    cryptBuffer dir s = .fault .unwrittenBuffer := by
  rcases cryptBuffer_cases dir s with ⟨h, -⟩ | ⟨-, h, -⟩ | ⟨-, -, -, h⟩ | ⟨m, -, -, h, -⟩
  · exact absurd (h.symm.trans hi) (by decide)
  · exact absurd hr (by omega)
  · exact h
  · obtain ⟨hblocks, -, -⟩ := Memory.mapBlocks_some h
    obtain ⟨x, hx, -⟩ := hblocks j h1 h2
    exact absurd (hj.symm.trans hx) (by simp)

/-- Settles O24: the two buffer commands are one loop in two directions. -/
theorem bufferCommandFaultsOnUnwrittenBlock : Obligations.BufferCommandFaultsOnUnwrittenBlock := by
  unfold Obligations.BufferCommandFaultsOnUnwrittenBlock
  exact fun _ _ _ _ hi hr h1 h2 hj => ⟨cryptBuffer_unwritten .enc hi hr h1 h2 hj, cryptBuffer_unwritten .dec hi hr h1 h2 hj⟩

/-! ### Reset -/

/-- Settles O53: every mapped register from 0x010 up shows a cleared component, and BUF lists no byte. -/
theorem resetValues : Obligations.ResetValues := by
  unfold Obligations.ResetValues
  intro c off _
  refine ⟨fun hrange h4 => ?_, fun h1 h2 h4 => ?_, rfl, rfl⟩
  · obtain ⟨r, ho, hclear⟩ := ofOffset_clearedAtReset c.bufBlocks h4 hrange
    exact hostRead_exact (s := State.resetWith c) rfl ho (readReg_reset c.bufBlocks hclear)
      (DesCore.unspecified_idle rfl r)
  · exact hostRead_buf_unwritten (s := State.resetWith c) rfl h4 h1 h2 (Memory.read_nil _)

/-- The core after reset meets the core's invariant, for every size of the buffer. -/
theorem DesCore.reset_inv (n : Nat) : DesCore.reset.Inv n where
  canonical := List.Pairwise.nil
  inWindow := by simp [DesCore.reset]
  wholeWords _ _ _ _ := rfl
  errorRow := List.mem_cons_self
  inFlight h := absurd h (by decide)
  xrknRange := Nat.zero_le _
  xrkRest i _ := zeroBank_get i
  initialised h := absurd h (by decide)
  noKey _ := ⟨rfl, rfl⟩

/-- Settles O57: the core is `DesCore.reset`, whatever the parameters. -/
theorem resetMeetsTheInvariant : Obligations.ResetMeetsTheInvariant := by
  unfold Obligations.ResetMeetsTheInvariant
  exact fun c => ⟨DesCore.reset_inv c.bufBlocks, fun _ => rfl⟩

end Sys2Proof.Machine
end

section
/-! PROOFS. A command in flight completes within the schedule (R72, R285; log entry 3). -/

namespace Sys2Proof.Machine

/-- Within `n` steps the run reaches a state with no command in flight, or a fault. -/
def CompletesWithin (n : Nat) (s : State) : Prop :=
  ∃ k, k ≤ n ∧
    ((∃ t, Sys2Proof.core.run k s = .next t ∧ t.des.busy = false) ∨ ∃ f, Sys2Proof.core.run k s = .fault f)

theorem completesWithin_of_idle {s : State} (n : Nat) (h : s.des.busy = false) : CompletesWithin n s :=
  ⟨0, Nat.zero_le n, .inl ⟨s, rfl, h⟩⟩

theorem completesWithin_of_fault {s : State} {f : Fault} (n : Nat) (h : step s = .fault f) : CompletesWithin (n + 1) s :=
  ⟨1, by omega, .inr ⟨f, run_succ_fault h⟩⟩

/-- A step makes the bound one more. -/
theorem completesWithin_of_step {n : Nat} {s t : State} (h : step s = .next t) (ht : CompletesWithin n t) :
    CompletesWithin (n + 1) s := by
  obtain ⟨k, hk, hrun⟩ := ht
  exact ⟨k + 1, by omega, by rwa [run_succ_next h]⟩

/-- The engine's turn completes the command in flight. -/
theorem completesWithin_of_engine {s : State} (n : Nat) (hm : s.cfg.masters ≤ 1) (hr : s.rst = false)
    (ht : s.turn = .engine) : CompletesWithin (n + 1) s := by
  rcases engineTurn_completes (s := s.popTurn) hr with ⟨t, h, hb⟩ | h <;> rw [← step_engine hm ht] at h
  · exact completesWithin_of_step h (completesWithin_of_idle n hb)
  · exact completesWithin_of_fault n h

/-- Settles O58, by induction on the schedule: a turn of the host keeps the command in flight, and the first turn of the
engine, at the latest the one after the schedule's end, completes it. -/
theorem commandInFlightCompletes : Obligations.CommandInFlightCompletes := by
  unfold Obligations.CommandInFlightCompletes
  intro s hm hr hb hsched
  change CompletesWithin (s.schedule.length + 1) s
  induction hs : s.schedule generalizing s with
  | nil => exact completesWithin_of_engine 0 hm hr (by simp [State.turn, hs, hb])
  | cons turn rest ih =>
    have hturn : s.turn = turn := by simp [State.turn, hs]
    rcases hsched turn (by simp [hs]) with rfl | rfl
    · rcases hostTurn_next_or_fault s.popTurn with ⟨t, h⟩ | ⟨f, h⟩
      · obtain ⟨-, hcfg, hrst, htail⟩ := hostTurn_next h
        have hrest : t.schedule = rest := by rw [htail, State.popTurn_schedule, hs, List.tail_cons]
        have hbusy : t.des.busy = true := hostTurn_keeps_busy (s := s.popTurn) hb h
        refine completesWithin_of_step ((step_host hm hturn).trans h) ?_
        exact hrest ▸ ih t (by rwa [hcfg]) (by rwa [hrst]) hbusy
          (fun u hu => hsched u (by rw [hs]; exact .tail _ (hrest ▸ hu))) hrest
      · exact completesWithin_of_fault _ ((step_host hm hturn).trans h)
    · exact completesWithin_of_engine _ hm hr hturn

end Sys2Proof.Machine
end

section
/-! PROOFS. The latch of an idle core is never read (R70). -/

namespace Sys2Proof.Machine

/-- The core with another latch. -/
def DesCore.withLatch (d : DesCore) (l : Latch) : DesCore := { d with latch := l }

/-- The machine with another latch. -/
def State.withLatch (s : State) (l : Latch) : State := { s with des := s.des.withLatch l }

/-- The outcome of a read with another latch in the state it leaves. -/
def ReadOutcome.withLatch (l : Latch) : ReadOutcome → ReadOutcome
  | .value v s => .value v (s.withLatch l)
  | .stop f => .stop f

/-- Two outcomes that differ in the latch of the next state at most, and not there where it has a command in flight. -/
inductive SameButLatch : Result → Result → Prop where
  | next (t : State) (l : Latch) (h : t.des.busy = true → l = t.des.latch) : SameButLatch (.next t) (.next (t.withLatch l))
  | fault (f : Fault) : SameButLatch (.fault f) (.fault f)
  | refused (r : Refusal) : SameButLatch (.refused r) (.refused r)

theorem SameButLatch.of_idle {t : State} (l : Latch) (h : t.des.busy = false) :
    SameButLatch (.next t) (.next (t.withLatch l)) :=
  .next t l (fun hb => absurd (h.symm.trans hb) (by decide))

theorem SameButLatch.refl_next (t : State) : SameButLatch (.next t) (.next t) := .next t t.des.latch (fun _ => rfl)

/-- No register shows the latch. -/
theorem DesCore.readReg_withLatch (d : DesCore) (l : Latch) (n : Nat) (r : Reg) :
    (d.withLatch l).readReg n r = d.readReg n r := by cases r <;> rfl

/-- Acceptance overwrites the latch (R71). -/
theorem DesCore.accept_withLatch (d : DesCore) (l : Latch) (w : Word) : (d.withLatch l).accept w = d.accept w := rfl

/-- A write to an idle core keeps another latch as it is, or accepts a command and so overwrites it. -/
theorem DesCore.writeReg_withLatch {d : DesCore} (h : d.busy = false) (l : Latch) (r : Reg) (v : Word) :
    ((d.writeReg r v).busy = false ∧ (d.withLatch l).writeReg r v = (d.writeReg r v).withLatch l) ∨
    (d.withLatch l).writeReg r v = d.writeReg r v := by
  have h' : (d.withLatch l).busy = false := h
  cases r with
  | cmd => exact .inr (by simp [DesCore.writeReg, DesCore.presentCommand, h, h', DesCore.accept_withLatch])
  | _ => exact .inl ⟨h, rfl⟩

/-- A read of an idle core returns the same with another latch, which it keeps. -/
theorem hostRead_withLatch {s : State} (hb : s.des.busy = false) (l : Latch) (off : Offset) :
    hostRead off (s.withLatch l) = (hostRead off s).withLatch l := by
  have hb' : (s.withLatch l).des.busy = false := hb
  have hv' : ∀ n r, (s.withLatch l).des.readReg n r = s.des.readReg n r := s.des.readReg_withLatch l
  rcases hostRead_cases off s with
    ⟨hr, q⟩ | ⟨hr, ho, q⟩ | ⟨r, hr, ho, hv, q⟩ | ⟨r, v, -, -, -, hu, -⟩ | ⟨r, v, hr, ho, hv, -, q⟩
  · rw [q, hostRead_inReset (s := s.withLatch l) off hr]; rfl
  · rw [q, hostRead_unmapped (s := s.withLatch l) hr ho]; rfl
  · rw [q, hostRead_unwritten (s := s.withLatch l) hr ho ((hv' _ r).trans hv)]; rfl
  · exact absurd ((DesCore.unspecified_idle hb r).symm.trans hu) (by decide)
  · rw [q, hostRead_exact (s := s.withLatch l) hr ho ((hv' _ r).trans hv) (DesCore.unspecified_idle hb' r)]; rfl

/-- A write to an idle core does the same with another latch. -/
theorem hostWrite_withLatch {s : State} (hb : s.des.busy = false) (l : Latch) (off : Offset) (v : Word) :
    SameButLatch (hostWrite off v s) (hostWrite off v (s.withLatch l)) := by
  rcases hostWrite_cases off v s with ⟨hr, q⟩ | ⟨hr, ho, q⟩ | ⟨r, -, -, hz, -⟩ | ⟨r, hr, ho, -, q⟩
  · rw [q, hostWrite_inReset (s := s.withLatch l) off v hr]
    exact .of_idle l hb
  · rw [q, hostWrite_unmapped (s := s.withLatch l) v hr ho]
    exact .of_idle (t := { s with des := s.des.badAccess }) l hb
  · exact absurd ((DesCore.writeHazard_idle hb r).symm.trans hz) (by decide)
  · have hw : hostWrite off v (s.withLatch l) = .next { s with des := (s.des.withLatch l).writeReg r v } :=
      hostWrite_mapped (s := s.withLatch l) v hr ho (DesCore.writeHazard_idle (d := s.des.withLatch l) hb r)
    rw [q, hw]
    rcases DesCore.writeReg_withLatch hb l r v with ⟨hb', e⟩ | e <;> rw [e]
    · exact .of_idle (t := { s with des := s.des.writeReg r v }) l hb'
    · exact .refl_next _

/-- A read leaves an idle core idle. -/
theorem hostRead_keeps_idle {off : Offset} {s t : State} {v : Word} (hb : s.des.busy = false)
    (h : hostRead off s = .value v t) : t.des.busy = false := by
  obtain ⟨hd | ⟨-, -, hd⟩, -⟩ := hostRead_value h <;> rw [hd] <;> exact hb

/-- The host's turn on an idle core does the same with another latch. -/
theorem hostTurn_withLatch {s : State} (hb : s.des.busy = false) (l : Latch) :
    SameButLatch (hostTurn s) (hostTurn (s.withLatch l)) := by
  have hread := hostRead_withLatch hb l
  have hscript : (s.withLatch l).script = s.script := rfl
  unfold hostTurn
  rw [hscript]
  cases s.script with
  | nil => exact .of_idle l hb
  | cons op rest =>
    cases op with
    | rd off =>
      simp only [hread off]
      cases hv : hostRead off s with
      | value v t =>
        have ht : t.des.busy = false := hostRead_keeps_idle hb hv
        exact .of_idle (t := { t.record off v with script := rest }) l ht
      | stop f => exact .fault f
    | wr off v => exact hostWrite_withLatch (s := { s with script := rest }) hb l off v
    | poll off mask v =>
      simp only [hread off]
      cases hv : hostRead off s with
      | value x t =>
        have ht : t.des.busy = false := hostRead_keeps_idle hb hv
        exact .of_idle
          (t := { t.record off x with script := if x &&& mask = v then rest else .poll off mask v :: rest }) l ht
      | stop f => exact .fault f

/-- A step of a machine with no command in flight does the same with another latch. -/
theorem step_withLatch {s : State} (hb : s.des.busy = false) (l : Latch) :
    SameButLatch (step s) (step (s.withLatch l)) := by
  have hturn : (s.withLatch l).turn = s.turn := rfl
  have hpop : (s.withLatch l).popTurn = s.popTurn.withLatch l := rfl
  have hcfg : (s.withLatch l).cfg = s.cfg := rfl
  unfold step
  rw [hturn, hpop, hcfg]
  split
  · exact .refused _
  · cases s.turn with
    | host => exact hostTurn_withLatch (s := s.popTurn) hb l
    | engine =>
      change SameButLatch (engineTurn s.popTurn) (engineTurn (s.popTurn.withLatch l))
      rw [engineTurn_idle (s := s.popTurn) hb, engineTurn_idle (s := s.popTurn.withLatch l) hb]
      exact .of_idle (t := s.popTurn) l hb
    | rstAssert => exact .refl_next _
    | rstRelease => exact .of_idle (t := { s.popTurn with rst := false }) l hb

/-- Settles O59: the statement is `step_withLatch`, read for a next state and for a fault. -/
theorem idleLatchIsNeverRead : Obligations.IdleLatchIsNeverRead := by
  unfold Obligations.IdleLatchIsNeverRead
  intro s l hb
  have h : SameButLatch (step s) (step { s with des := { s.des with latch := l } }) := step_withLatch hb l
  refine ⟨fun t ht => ?_, fun f hf => ?_⟩
  · rw [ht] at h
    generalize step { s with des := { s.des with latch := l } } = o at h ⊢
    cases h with
    | next _ l' hl => exact ⟨l', rfl, hl⟩
  · rw [hf] at h
    generalize step { s with des := { s.des with latch := l } } = o at h ⊢
    cases h
    rfl

end Sys2Proof.Machine
end

section
/-! PROOFS. The rules of the port for the obligations of `spec/20_memory.md`: which offsets name a register, what a write to
a read-only register, to an operand and to a word of BUF does, and what a command stores. -/

namespace Sys2Proof.Machine

/-! ### The register map, both ways -/

/-- A register below the banks is reached at its own offset alone, and XRKN at 0x058 is the last of them. -/
theorem ofLowOffset_offset {o : Nat} {r : Reg} (h : Reg.ofLowOffset o = some r) : r.offset = o ∧ o < 0x05C := by
  unfold Reg.ofLowOffset at h
  split at h <;> cases h <;> exact ⟨rfl, by decide⟩

/-- No register lies between XRKN and the banks (R89). -/
theorem ofLowOffset_gap {o : Nat} (h : 0x05C ≤ o) : Reg.ofLowOffset o = none := by
  cases hr : Reg.ofLowOffset o with
  | none => rfl
  | some r => exact absurd (ofLowOffset_offset hr).2 (by omega)

/-- The offsets that name no register: misaligned ones, the two gaps of R89, and those past the end of BUF. -/
def BadOffset (n o : Nat) : Prop :=
  o % 4 ≠ 0 ∨ (0x05C ≤ o ∧ o < 0x100) ∨ (0x200 ≤ o ∧ o < 0x8000) ∨ 0x8000 + 8 * n ≤ o

/-- A bad offset reaches no register (R83, R89). -/
theorem ofOffset_bad {n : Nat} {off : Offset} (h : BadOffset n off.toNat) : Reg.ofOffset n off = none := by
  by_cases h4 : off.toNat % 4 = 0
  · rcases h with h | ⟨h1, h2⟩ | ⟨h1, h2⟩ | h
    · exact absurd h4 h
    · rw [ofOffset_low n off h4 h2, ofLowOffset_gap h1]
    · simp (disch := omega) only [Reg.ofOffset, if_neg, if_pos]
    · simp (disch := omega) only [Reg.ofOffset, if_neg, if_pos]
  · simp only [Reg.ofOffset, ne_eq, h4, not_false_eq_true, if_true]

theorem not_badOffset_of_ofOffset {n : Nat} {off : Offset} {r : Reg} (h : Reg.ofOffset n off = some r) :
    ¬ BadOffset n off.toNat :=
  fun hbad => Option.some_ne_none r (h.symm.trans (ofOffset_bad hbad))

/-- An offset reaches a register only if it is that register's offset. -/
theorem offset_of_ofOffset {n : Nat} {off : Offset} {r : Reg} (h : Reg.ofOffset n off = some r) :
    r.offset = off.toNat := by
  have hgood := not_badOffset_of_ofOffset h
  unfold BadOffset at hgood
  have h4 : off.toNat % 4 = 0 := by omega
  have hregion : off.toNat < 0x100 ∨ (0x100 ≤ off.toNat ∧ off.toNat < 0x200) ∨
      (0x8000 ≤ off.toNat ∧ off.toNat < 0x8000 + 8 * n) := by omega
  rcases hregion with hlow | ⟨h1, h2⟩ | ⟨h1, h2⟩
  · rw [ofOffset_low n off h4 hlow] at h
    exact (ofLowOffset_offset h).1
  · obtain ⟨i, hi⟩ := bank_offset_cases off h4 h1 h2
    obtain ⟨hrkHi, hrkLo, hxrkHi, hxrkLo⟩ := ofOffset_banks n i
    have hoff : ∀ b, b ≤ 0x184 → b + 8 * i.val = (BitVec.ofNat 16 (b + 8 * i.val)).toNat := fun b _ => by simp; omega
    rcases hi with rfl | rfl | rfl | rfl
    · obtain rfl : Reg.rkHi i = r := Option.some.inj (hrkHi.symm.trans h)
      exact hoff 0x100 (by decide)
    · obtain rfl : Reg.rkLo i = r := Option.some.inj (hrkLo.symm.trans h)
      exact hoff 0x104 (by decide)
    · obtain rfl : Reg.xrkHi i = r := Option.some.inj (hxrkHi.symm.trans h)
      exact hoff 0x180 (by decide)
    · obtain rfl : Reg.xrkLo i = r := Option.some.inj (hxrkLo.symm.trans h)
      exact hoff 0x184 (by decide)
  · obtain ⟨j, -, ⟨ho, ha⟩ | ⟨ho, ha⟩⟩ := ofOffset_buf n off h4 h1 h2
    · obtain rfl : Reg.bufHi j = r := Option.some.inj (ho.symm.trans h)
      exact ha.symm
    · obtain rfl : Reg.bufLo j = r := Option.some.inj (ho.symm.trans h)
      exact ha.symm

/-- The registers of a build are those below the end of its BUF. -/
theorem Reg.exists_iff_offset_lt (n : Nat) (r : Reg) : r.Exists n ↔ r.offset < 0x8000 + 8 * n := by
  cases r with
  | bufHi j | bufLo j => simp only [Reg.Exists, Reg.offset]; omega
  | _ => simp only [Reg.Exists, Reg.offset, true_iff]; omega

/-- The first word of block `j` of BUF at its offset (R85). -/
theorem ofOffset_bufHi {n j : Nat} {off : Offset} (hj : j < n) (h : off.toNat = bufHiAt j) :
    Reg.ofOffset n off = some (.bufHi j) := by
  rw [Memory.bufHiAt_eq] at h
  simp (disch := omega) only [Reg.ofOffset, show (off.toNat - 0x8000) / 8 = j by omega, if_neg, if_pos]

/-- The second word of block `j` of BUF at its offset (R85). -/
theorem ofOffset_bufLo {n j : Nat} {off : Offset} (hj : j < n) (h : off.toNat = bufLoAt j) :
    Reg.ofOffset n off = some (.bufLo j) := by
  rw [Memory.bufLoAt_eq] at h
  simp (disch := omega) only [Reg.ofOffset, show (off.toNat - 0x8000) / 8 = j by omega, if_neg, if_pos]

/-- Each register of a build is reached at its own offset, which for up to 4096 blocks fits the port's sixteen bits. -/
theorem ofOffset_portOffset {n : Nat} (hn : n ≤ 4096) {r : Reg} (hr : r.Exists n) :
    Reg.ofOffset n r.portOffset = some r := by
  have hfits : r.portOffset.toNat = r.offset :=
    Nat.mod_eq_of_lt (by have := (Reg.exists_iff_offset_lt n r).mp hr; omega)
  cases r with
  | rkHi i =>
    obtain ⟨h, -, -, -⟩ := ofOffset_banks n i
    exact h
  | rkLo i =>
    obtain ⟨-, h, -, -⟩ := ofOffset_banks n i
    exact h
  | xrkHi i =>
    obtain ⟨-, -, h, -⟩ := ofOffset_banks n i
    exact h
  | xrkLo i =>
    obtain ⟨-, -, -, h⟩ := ofOffset_banks n i
    exact h
  | bufHi j => exact ofOffset_bufHi hr hfits
  | bufLo j => exact ofOffset_bufLo hr hfits
  | _ => rfl

/-! ### The port's accesses -/

/-- A register that no host write changes (R84). -/
def Reg.readOnly : Reg → Bool
  | .id | .cap0 | .cap1 | .cap2 | .errcode | .knorm0 | .knorm1 | .dout0 | .dout1 | .hout | .xrkn => true
  | .rkHi _ | .rkLo _ | .xrkHi _ | .xrkLo _ => true
  | _ => false

/-- A write at the offset of a read-only register leaves the whole state as it was (R84). -/
theorem hostWrite_readOnly {s : State} {off : Offset} {r : Reg} (v : Word) (hr : s.rst = false)
    (ho : Reg.ofOffset s.cfg.bufBlocks off = some r) (hro : r.readOnly = true) : hostWrite off v s = .next s := by
  obtain ⟨hz, hkeep⟩ : s.des.writeHazard r = false ∧ s.des.writeReg r v = s.des := by
    cases r with
    | ctrl | status | cmd | key0 | key1 | din0 | din1 | hin | rkin0 | rkin1 | bufBase | bufCnt | bufHi | bufLo => cases hro
    | _ => exact ⟨rfl, rfl⟩
  rw [hostWrite_mapped v hr ho hz, hkeep]

/-- The offsets of the read-only registers below the banks (R33 to R36, R39, R42, R44, R47, R49). -/
theorem ofLowOffset_readOnly :
    ∀ o ∈ [0x000, 0x004, 0x008, 0x00C, 0x018, 0x028, 0x02C, 0x038, 0x03C, 0x04C, 0x058],
      o % 4 = 0 ∧ o < 0x100 ∧ (Reg.ofLowOffset o).any Reg.readOnly = true := by decide

/-- Byte `k` of a stored word is the word's bits from 31 − 8k down (R81, R86). -/
theorem Memory.read_writeWord_byte (m : Memory) (a : Nat) (v : Word) {k : Nat} (hk : k < 4) :
    (m.writeWord a v).read (a + k) = some (v.extractLsb' (24 - 8 * k) 8) := by
  rw [Memory.read_writeWord]
  obtain rfl | rfl | rfl | rfl : k = 0 ∨ k = 1 ∨ k = 2 ∨ k = 3 := by omega
  all_goals simp

/-- A write of a word of block `j` is no hazard unless a word with the OP of a buffer command is in flight and block `j` is
in its latched range (R282; log entries 6 and 7). -/
theorem DesCore.writeHazard_buf_false {d : DesCore} {r : Reg} {j : Nat} (hr : r = .bufHi j ∨ r = .bufLo j)
    (h : d.busy = false ∨ (d.latch.cmd &&& 0xFF#32 ≠ 6 ∧ d.latch.cmd &&& 0xFF#32 ≠ 7) ∨
      j < d.latch.base.toNat ∨ d.latch.base.toNat + d.latch.cnt.toNat ≤ j) : d.writeHazard r = false := by
  have hrow : d.writeHazard r = (d.busy && (((opField d.latch.cmd).toNat == 0x06 || (opField d.latch.cmd).toNat == 0x07) &&
      d.latch.inRange j)) := by rcases hr with rfl | rfl <;> rfl
  rw [hrow]
  rcases h with hb | ⟨h6, h7⟩ | hout
  · rw [hb, Bool.false_and]
  · have hop6 : (opField d.latch.cmd).toNat ≠ 6 := fun e => h6 (BitVec.eq_of_toNat_eq ((mask_op_toNat _).trans e))
    have hop7 : (opField d.latch.cmd).toNat ≠ 7 := fun e => h7 (BitVec.eq_of_toNat_eq ((mask_op_toNat _).trans e))
    simp [hop6, hop7]
  · have hin : d.latch.inRange j = false := by simp [Latch.inRange]; omega
    simp [hin]

/-! ### A buffer command, one equation for each way it ends -/

/-- With no key a buffer command reports that first (R243). -/
theorem cryptBuffer_noInit (dir : Direction) {s : State} (hi : s.des.init = false) :
    cryptBuffer dir s = s.raise .notInitialized := by
  simp [cryptBuffer, hi]

/-- A range that goes past the end of BUF is reported (R217). -/
theorem cryptBuffer_outOfRange (dir : Direction) {s : State} (hi : s.des.init = true)
    (hr : s.cfg.bufBlocks < s.des.latch.base.toNat + s.des.latch.cnt.toNat) :
    cryptBuffer dir s = s.raise .bufferRange := by
  simp [cryptBuffer, Latch.rangeOk, hi, Nat.not_le.mpr hr]

/-- A range in which the loop meets an unwritten block is the fault of R75 and R88. -/
theorem cryptBuffer_fault (dir : Direction) {s : State} (hi : s.des.init = true)
    (hr : s.des.latch.base.toNat + s.des.latch.cnt.toNat ≤ s.cfg.bufBlocks)
    (hm : s.des.buf.mapBlocks (fun x => desBlock x s.des.rk dir) s.des.latch.base.toNat s.des.latch.cnt.toNat = none) :
    cryptBuffer dir s = .fault .unwrittenBuffer := by
  simp [cryptBuffer, Latch.rangeOk, hi, hr, hm]

/-- Over a written range the command completes with what the loop leaves (R216, R219). -/
theorem cryptBuffer_complete (dir : Direction) {s : State} {m : Memory} (hi : s.des.init = true)
    (hr : s.des.latch.base.toNat + s.des.latch.cnt.toNat ≤ s.cfg.bufBlocks)
    (hm : s.des.buf.mapBlocks (fun x => desBlock x s.des.rk dir) s.des.latch.base.toNat s.des.latch.cnt.toNat = some m) :
    cryptBuffer dir s = s.complete { s.des with buf := m } := by
  simp [cryptBuffer, Latch.rangeOk, hi, hr, hm]

/-! ### The operands (R93) -/

/-- The core with the operand registers of another. -/
def DesCore.withOperandsOf (d e : DesCore) : DesCore :=
  { d with key := e.key, din := e.din, hin := e.hin, rkin := e.rkin, bufBase := e.bufBase, bufCnt := e.bufCnt }

/-- The machine with the operand registers of a core. -/
def State.withOperandsOf (s : State) (e : DesCore) : State := { s with des := s.des.withOperandsOf e }

/-- The registers that show operands. -/
def Reg.operand : Reg → Bool
  | .key0 | .key1 | .din0 | .din1 | .hin | .rkin0 | .rkin1 | .bufBase | .bufCnt => true
  | _ => false

/-- A write to an operand register changes operand registers alone, the latch among what stays (R93). -/
theorem DesCore.writeReg_operand {r : Reg} (h : r.operand = true) (d : DesCore) (v : Word) :
    d.writeReg r v = d.withOperandsOf (d.writeReg r v) := by
  cases r with
  | key0 | key1 | din0 | din1 | hin | rkin0 | rkin1 | bufBase | bufCnt => rfl
  | _ => cases h

/-- The operand registers are at these offsets. -/
theorem ofLowOffset_operand :
    ∀ o ∈ [0x020, 0x024, 0x030, 0x034, 0x040, 0x044, 0x048, 0x050, 0x054],
      o % 4 = 0 ∧ o < 0x100 ∧ (Reg.ofLowOffset o).all Reg.operand = true := by decide

/-- An outcome with the operand registers of a core in the state it leaves. -/
def outcomeWithOperandsOf (e : DesCore) : Result → Result
  | .next t => .next (t.withOperandsOf e)
  | .fault f => .fault f
  | .refused r => .refused r

/-- A completion that writes DOUT leaves the operand registers alone. -/
theorem complete_dout_withOperandsOf (s : State) (e : DesCore) (x : Block) :
    (s.withOperandsOf e).complete { (s.withOperandsOf e).des with dout := x } =
      outcomeWithOperandsOf e (s.complete { s.des with dout := x }) := rfl

/-- ENC_BLOCK and DEC_BLOCK read no operand register (R93, R210, R212). -/
theorem cryptBlock_withOperandsOf (dir : Direction) (s : State) (e : DesCore) :
    cryptBlock dir (s.withOperandsOf e) = outcomeWithOperandsOf e (cryptBlock dir s) := by
  cases hi : s.des.init with
  | false =>
    rw [cryptBlock_noInit dir s hi]
    exact cryptBlock_noInit dir (s.withOperandsOf e) hi
  | true =>
    rw [cryptBlock_init dir s hi, cryptBlock_init dir (s.withOperandsOf e) hi]
    exact complete_dout_withOperandsOf s e _

/-- ENC_BUF and DEC_BUF read no operand register (R93, R216, R219). -/
theorem cryptBuffer_withOperandsOf (dir : Direction) (s : State) (e : DesCore) :
    cryptBuffer dir (s.withOperandsOf e) = outcomeWithOperandsOf e (cryptBuffer dir s) := by
  rcases cryptBuffer_cases dir s with ⟨h, q⟩ | ⟨h, hr, q⟩ | ⟨h, hr, hm, q⟩ | ⟨m, h, hr, hm, q⟩ <;> rw [q]
  · exact cryptBuffer_noInit dir (s := s.withOperandsOf e) h
  · exact cryptBuffer_outOfRange dir (s := s.withOperandsOf e) h hr
  · exact cryptBuffer_fault dir (s := s.withOperandsOf e) h hr hm
  · exact cryptBuffer_complete dir (s := s.withOperandsOf e) h hr hm

/-- A command but ZEROIZE does the same with other operand registers, as it reads the latch, and keeps them (R93). -/
theorem exec_withOperandsOf {i : Instr} (hi : ∀ k n, i ≠ .zeroize k n) (s : State) (e : DesCore) :
    exec i (s.withOperandsOf e) = outcomeWithOperandsOf e (exec i s) := by
  cases i with
  | keyInit klen nrk =>
    simp only [exec, execKeyInit]
    split
    · rfl
    · rfl
  | keyExpand klen nrk =>
    simp only [exec, execKeyExpand]
    split
    · split
      · rfl
      · rfl
    · rfl
  | encBlock klen nrk => exact cryptBlock_withOperandsOf .enc s e
  | decBlock klen nrk => exact cryptBlock_withOperandsOf .dec s e
  | roundF klen nrk => rfl
  | encBuf klen nrk => exact cryptBuffer_withOperandsOf .enc s e
  | decBuf klen nrk => exact cryptBuffer_withOperandsOf .dec s e
  | zeroize klen nrk => exact absurd rfl (hi klen nrk)

/-- The core a command completes with leaves memory alone, unless it is a buffer command (R85). -/
theorem Effect.buf_eq {i : Instr} {s : State} {d : DesCore} (hi : ∀ k n, i ≠ .encBuf k n ∧ i ≠ .decBuf k n)
    (h : Effect s i d) : d.buf = s.des.buf := by
  cases h with
  | encBuf k n => exact absurd rfl (hi k n).1
  | decBuf k n => exact absurd rfl (hi k n).2
  | _ => rfl

end Sys2Proof.Machine
end

section
/-! PROOFS. The obligations on the port and on memory (`spec/20_memory.md`). -/

namespace Sys2Proof.Machine

/-- Settles O37: a bad offset reaches no register. -/
theorem badAccessSetsAerr : Obligations.BadAccessSetsAerr := by
  unfold Obligations.BadAccessSetsAerr
  intro s off v hr hbad
  have ho : Reg.ofOffset s.cfg.bufBlocks off = none := ofOffset_bad hbad
  exact ⟨hostRead_unmapped hr ho, hostWrite_unmapped v hr ho⟩

/-- Settles O38: a mapped offset is no bad one, so it lies below the end of BUF. -/
theorem registerMapIsExact : Obligations.RegisterMapIsExact := by
  unfold Obligations.RegisterMapIsExact
  refine fun n hn => ⟨fun _ => ofOffset_portOffset hn, fun off r h => ?_⟩
  have hoff : r.offset = off.toNat := offset_of_ofOffset h
  have hgood := not_badOffset_of_ofOffset h
  unfold BadOffset at hgood
  exact ⟨(Reg.exists_iff_offset_lt n r).mpr (by omega), hoff⟩

/-- Settles O43: AERR set twice is AERR set once, and an idle core draws no free value. -/
theorem readsHaveNoSideEffect : Obligations.ReadsHaveNoSideEffect := by
  unfold Obligations.ReadsHaveNoSideEffect
  intro off s t v h
  refine ⟨fun hmapped => ?_, fun hb => ?_⟩
  · obtain ⟨hd | ⟨-, ho, -⟩, -⟩ := hostRead_value h
    · exact hd
    · exact absurd ho hmapped
  · rcases hostRead_cases off s with ⟨-, q⟩ | ⟨hr, ho, q⟩ | ⟨_, -, -, -, q⟩ | ⟨r, _, -, -, -, hu, -⟩ | ⟨_, _, -, -, -, -, q⟩
    · obtain ⟨rfl, rfl⟩ := ReadOutcome.value.inj (q.symm.trans h)
      exact q
    · obtain ⟨rfl, rfl⟩ := ReadOutcome.value.inj (q.symm.trans h)
      exact hostRead_unmapped (s := { s with des := s.des.badAccess }) hr ho
    · cases q.symm.trans h
    · exact absurd ((DesCore.unspecified_idle hb r).symm.trans hu) (by decide)
    · obtain ⟨rfl, rfl⟩ := ReadOutcome.value.inj (q.symm.trans h)
      exact q

/-- Settles O46: the write is the store of one word at its offset. -/
theorem bufferWriteStoresOneWord : Obligations.BufferWriteStoresOneWord := by
  unfold Obligations.BufferWriteStoresOneWord
  intro s off v j hr hj hoff hfree
  obtain ⟨r, ho, hreg⟩ : ∃ r, Reg.ofOffset s.cfg.bufBlocks off = some r ∧ (r = .bufHi j ∨ r = .bufLo j) := by
    rcases hoff with h | h
    · exact ⟨_, ofOffset_bufHi hj h, .inl rfl⟩
    · exact ⟨_, ofOffset_bufLo hj h, .inr rfl⟩
  have hw := hostWrite_mapped v hr ho (DesCore.writeHazard_buf_false hreg hfree)
  obtain ⟨r', ho', hword⟩ := ofOffset_buf_word (n := s.cfg.bufBlocks) (off := off) (by omega) (by omega) (by omega)
  obtain rfl : r' = r := Option.some.inj (ho'.symm.trans ho)
  rw [(hword s.des).2 v] at hw
  exact ⟨_, hw, fun k => Memory.read_writeWord_byte _ _ v, fun a => Memory.read_writeWord_other _ v, rfl⟩

/-- Settles O50: the write changes operand registers alone, which ZEROIZE clears and no other command reads or writes. -/
theorem operandWritesMissTheCommandInFlight : Obligations.OperandWritesMissTheCommandInFlight := by
  unfold Obligations.OperandWritesMissTheCommandInFlight
  intro s t off mask v i hr _ hmem hw
  obtain ⟨r, ho, hreg⟩ := operandRegister_readsBack s.cfg.bufBlocks hmem
  obtain ⟨hz, -, hread⟩ := hreg s.des v
  obtain rfl : { s with des := s.des.writeReg r v } = t :=
    Host.Outcome.next.inj ((hostWrite_mapped v hr ho hz).symm.trans hw)
  have hop : r.operand = true := by
    obtain ⟨h4, hlt, hall⟩ := ofLowOffset_operand off.toNat (List.mem_map_of_mem (f := fun p => p.1.toNat) hmem)
    rw [ofOffset_low _ off h4 hlt] at ho
    simpa [ho] using hall
  have hset : { s with des := s.des.writeReg r v } = s.withOperandsOf (s.des.writeReg r v) :=
    congrArg (fun d => { s with des := d }) (DesCore.writeReg_operand hop s.des v)
  refine ⟨⟨r, ho, hread⟩, hset, fun s' hs' => ?_⟩
  rw [hset]
  by_cases hi : ∃ k n, i = .zeroize k n
  · obtain ⟨k, n, rfl⟩ := hi
    obtain rfl := Host.Outcome.next.inj hs'
    exact ⟨_, rfl, rfl, rfl, rfl, rfl, rfl, rfl, rfl, rfl, rfl, rfl, fun _ _ _ => ⟨rfl, rfl, rfl, rfl⟩,
      fun h => absurd rfl (h k n)⟩
  · have hother : ∀ k n, i ≠ .zeroize k n := fun k n e => hi ⟨k, n, e⟩
    refine ⟨s'.withOperandsOf (s.des.writeReg r v), ?_, rfl, rfl, rfl, rfl, rfl, rfl, rfl, rfl, rfl, rfl,
      fun k n e => absurd e (hother k n), fun _ => ⟨rfl, rfl, rfl, rfl⟩⟩
    rw [exec_withOperandsOf hother, hs']
    rfl

/-- Settles O26: an error writes no memory, and neither does the effect of a command that is no buffer command. -/
theorem otherCommandsStoreNothing : Obligations.OtherCommandsStoreNothing := by
  unfold Obligations.OtherCommandsStoreNothing
  intro i s t hi h a
  rcases exec_next h with ⟨e, rfl⟩ | ⟨d, hd, rfl⟩
  · rfl
  · rw [DesCore.finish_buf, hd.buf_eq hi]

/-- Settles O34: the number of masters is the first thing a step looks at. -/
theorem secondMasterRefused : Obligations.SecondMasterRefused := by
  unfold Obligations.SecondMasterRefused
  intro s hm
  exact if_pos hm

/-- Settles O44: each of the offsets reaches a read-only register. -/
theorem readOnlyWritesAreIgnored : Obligations.ReadOnlyWritesAreIgnored := by
  unfold Obligations.ReadOnlyWritesAreIgnored
  rintro s off v hr (hlow | ⟨h1, h2, h4⟩)
  · obtain ⟨h4, hlt, hany⟩ := ofLowOffset_readOnly off.toNat (List.mem_map_of_mem (f := BitVec.toNat) hlow)
    obtain ⟨r, ho, hro⟩ := (Option.any_eq_true _ _).mp hany
    exact hostWrite_readOnly v hr ((ofOffset_low _ off h4 hlt).trans ho) hro
  · obtain ⟨i, hi⟩ := bank_offset_cases off h4 h1 h2
    obtain ⟨hrkHi, hrkLo, hxrkHi, hxrkLo⟩ := ofOffset_banks s.cfg.bufBlocks i
    rcases hi with rfl | rfl | rfl | rfl
    · exact hostWrite_readOnly v hr hrkHi rfl
    · exact hostWrite_readOnly v hr hrkLo rfl
    · exact hostWrite_readOnly v hr hxrkHi rfl
    · exact hostWrite_readOnly v hr hxrkLo rfl

end Sys2Proof.Machine
end

section
/-! PROOFS. What the decoder answers, as equivalences and one equation for each way it rejects a word
(`spec/30_encoding.md` R110 to R116); the rules of the host's turn, one for each way an operation of a script ends (R118);
and the count of KEY_EXPAND (R112). -/

namespace Sys2Proof

/-! ### Words that are commands -/

/-- The table of R111 answers a command on the command's own code and fields. -/
theorem commandOf_opcode (i : Instr) : commandOf i.opcode i.klen i.nrk = some i := by
  cases i <;> rfl

/-- The words that decode to a command are the command's own word, and only where its fields fit (R110, R114, R116). -/
theorem decode_eq_command_iff (w : Word) (i : Instr) : decode w = .command i ↔ i.WellFormed ∧ encode i = w := by
  rw [decode_command_iff]
  constructor
  · rintro ⟨h, hhigh, hlow⟩
    obtain ⟨hop, hklen, hnrk⟩ := commandOf_eq_some h
    have hklenFits : i.klen < 16 := by rw [hklen]; exact (klenField w).isLt
    have hnrkFits : i.nrk < 32 := by rw [hnrk]; exact (nrkField w).isLt
    refine ⟨⟨hklenFits, hnrkFits⟩, ?_⟩
    rw [encode, hop, hklen, hnrk]
    simpa using layout_fields w hhigh hlow
  · rintro ⟨⟨hklen, hnrk⟩, rfl⟩
    obtain ⟨hop, hk, hn, hreserved⟩ := encode_fields i
    have hopcode : i.opcode < 2 ^ 8 := by have := opcode_range i; omega
    refine ⟨?_, hreserved⟩
    rw [hop, hk, hn, BitVec.toNat_ofNat, BitVec.toNat_ofNat, BitVec.toNat_ofNat, Nat.mod_eq_of_lt hopcode,
      Nat.mod_eq_of_lt hklen, Nat.mod_eq_of_lt hnrk]
    exact commandOf_opcode i

/-- A word decodes to a command with a given code exactly when the code is defined, its OP is that code and no reserved
bit is set (R114). -/
theorem exists_decode_opcode_iff (w : Word) (op : Nat) :
    (∃ i, decode w = .command i ∧ i.opcode = op) ↔
      1 ≤ op ∧ op ≤ 8 ∧ (opField w).toNat = op ∧ reservedHigh w = 0 ∧ reservedLow w = 0 := by
  constructor
  · rintro ⟨i, hi, rfl⟩
    obtain ⟨h, hreserved⟩ := (decode_command_iff w i).mp hi
    obtain ⟨h1, h8⟩ := opcode_range i
    exact ⟨h1, h8, (commandOf_eq_some h).1.symm, hreserved⟩
  · rintro ⟨h1, h8, rfl, hreserved⟩
    cases h : commandOf (opField w).toNat (klenField w).toNat (nrkField w).toNat with
    | none => have := commandOf_eq_none_iff.mp h; omega
    | some i => exact ⟨i, (decode_command_iff w i).mpr ⟨h, hreserved⟩, (commandOf_eq_some h).1⟩

/-- The mask of R116 shows OP and the reserved bits of a word, so it shows a code alone exactly when OP is that code and
no reserved bit is set. -/
theorem mask_eq_opcode_iff (w : Word) {op : Nat} (h8 : op ≤ 8) :
    w &&& 0xFFE0F0FF#32 = BitVec.ofNat 32 op ↔ (opField w).toNat = op ∧ reservedHigh w = 0 ∧ reservedLow w = 0 := by
  constructor
  · intro h
    have hcode : ∀ n ≤ 8, (BitVec.ofNat 32 n &&& 0xFF#32).toNat = n ∧ BitVec.ofNat 32 n &&& 0xFFE0F000#32 = 0 := by decide
    obtain ⟨hop, hreserved⟩ := hcode op h8
    rw [← h, BitVec.and_assoc] at hop hreserved
    exact ⟨(mask_op_toNat w).symm.trans hop, (reserved_clear_iff w).mp hreserved⟩
  · rintro ⟨rfl, hhigh, hlow⟩
    calc w &&& 0xFFE0F0FF#32
      _ = layout (opField w) (klenField w) (nrkField w) &&& 0xFFE0F0FF#32 := by rw [layout_fields w hhigh hlow]
      _ = (opField w).setWidth 32 := layout_mask _ _ _
      _ = BitVec.ofNat 32 (opField w).toNat := (BitVec.ofNat_toNat 32 _).symm

/-! ### Words that are no commands -/

/-- A word whose OP is 0 or above 8 is rejected for its code (R115). -/
theorem decode_reservedOp {w : Word} (h : (opField w).toNat < 1 ∨ 8 < (opField w).toNat) :
    decode w = .illegal .reservedOp := by
  simp [decode, commandOf_eq_none_iff.mpr h]

/-- A word with a defined OP and a reserved bit set is rejected for the bit (R115). -/
theorem decode_reservedBits {w : Word} (h1 : 1 ≤ (opField w).toNat) (h8 : (opField w).toNat ≤ 8)
    (h : ¬(reservedHigh w = 0 ∧ reservedLow w = 0)) : decode w = .illegal .reservedBits := by
  obtain ⟨i, hi⟩ : ∃ i, commandOf (opField w).toNat (klenField w).toNat (nrkField w).toNat = some i :=
    Option.ne_none_iff_exists'.mp fun hn => by have := commandOf_eq_none_iff.mp hn; omega
  have hset : reservedHigh w ≠ 0 ∨ reservedLow w ≠ 0 := Decidable.not_and_iff_or_not.mp h
  simp only [decode, hi, if_pos hset]

end Sys2Proof

namespace Sys2Proof.Machine

variable {s t : State} {off : Offset} {mask v x : Word} {f : Fault} {rest : List HostOp}

/-! ### The host's turn: one rule for each way an operation of the script ends -/

/-- With no operation left the host does nothing (R80). -/
theorem hostTurn_nil (hs : s.script = []) : hostTurn s = .next s := by
  simp [hostTurn, hs]

/-- `rd` records what the port returned and goes on (R118). -/
theorem hostTurn_rd_value (hs : s.script = .rd off :: rest) (hv : hostRead off s = .value x t) :
    hostTurn s = .next { t.record off x with script := rest } := by
  simp [hostTurn, hs, hv]

/-- `rd` faults where its read does (R75). -/
theorem hostTurn_rd_stop (hs : s.script = .rd off :: rest) (hv : hostRead off s = .stop f) : hostTurn s = .fault f := by
  simp [hostTurn, hs, hv]

/-- `wr` is the write (R118). -/
theorem hostTurn_wr (hs : s.script = .wr off v :: rest) :
    hostTurn s = hostWrite off v { s with script := rest } := by
  simp [hostTurn, hs]

/-- `poll` records what the port returned and goes on when the value under the mask is the one given (R118). -/
theorem hostTurn_poll_value (hs : s.script = .poll off mask v :: rest) (hv : hostRead off s = .value x t) :
    hostTurn s = .next { t.record off x with script := if x &&& mask = v then rest else s.script } := by
  simp [hostTurn, hs, hv]

/-- `poll` faults where its read does (R75). -/
theorem hostTurn_poll_stop (hs : s.script = .poll off mask v :: rest) (hv : hostRead off s = .stop f) :
    hostTurn s = .fault f := by
  simp [hostTurn, hs, hv]

/-- A HostRead itself records nothing: the record is the host's. -/
theorem hostRead_reads (hv : hostRead off s = .value x t) : t.reads = s.reads := by
  rw [(hostRead_value hv).2]

/-! ### KEY_EXPAND -/

/-- The count that NRK asks for fits XRKN (R49, R112). -/
theorem roundCount_toNat {nrk : Nat} (h : nrk ≤ 16) : (BitVec.ofNat 5 (roundCount nrk)).toNat = roundCount nrk := by
  have hc : roundCount nrk ≤ 16 := by
    unfold roundCount
    split
    · exact Nat.le_refl 16
    · exact h
  rw [BitVec.toNat_ofNat, Nat.mod_eq_of_lt (by omega)]

end Sys2Proof.Machine
end

section
/-! PROOFS. The obligations on the encoding, on KEY_EXPAND and on the host's script (`spec/30_encoding.md`). -/

namespace Sys2Proof.Machine

/-! ### Encoding -/

/-- Settles O2: both directions of `decode_eq_command_iff`. -/
theorem decodeAndEncodeAgree : Obligations.DecodeAndEncodeAgree := by
  unfold Obligations.DecodeAndEncodeAgree
  exact ⟨fun i hi => (decode_eq_command_iff (encode i) i).mpr ⟨hi, rfl⟩, fun w i => (decode_eq_command_iff w i).mp⟩

/-- Settles O3: both sides say that OP is the code and no reserved bit is set. -/
theorem commandWordsAreTheMaskedRows : Obligations.CommandWordsAreTheMaskedRows := by
  unfold Obligations.CommandWordsAreTheMaskedRows
  intro w op
  rw [exists_decode_opcode_iff]
  exact and_congr_right fun _ => and_congr_right fun h8 => (mask_eq_opcode_iff w h8).symm

/-- Settles O4: the masks show OP and the reserved bits, and the decoder looks at OP first. -/
theorem reservedWordsAreIllegal : Obligations.ReservedWordsAreIllegal := by
  unfold Obligations.ReservedWordsAreIllegal
  intro w
  refine ⟨fun h => ⟨.reservedOp, decode_reservedOp ?_, rfl⟩, fun h1 h8 h => ⟨.reservedBits, ?_, rfl⟩⟩
  · rw [← mask_op_toNat]
    rcases h with h | h
    · exact .inl (by rw [h]; decide)
    · exact .inr h
  · rw [mask_op_toNat] at h1 h8
    exact decode_reservedBits h1 h8 fun hclear => h ((reserved_clear_iff w).mpr hclear)

/-- Settles O1: the decoder evaluated on the sixteen words. -/
theorem decodeOfWrittenWords : Obligations.DecodeOfWrittenWords := by
  unfold Obligations.DecodeOfWrittenWords
  decide

/-! ### Commands -/

/-- Settles O18: of the three ways KEY_EXPAND ends, a supported key length and count take the first. -/
theorem keyExpandFillsTheExpansionBank : Obligations.KeyExpandFillsTheExpansionBank := by
  unfold Obligations.KeyExpandFillsTheExpansionBank
  intro klen nrk s hk hn
  rcases execKeyExpand_cases klen nrk s with ⟨-, -, h⟩ | ⟨-, hn', -⟩ | ⟨hk', -⟩
  · exact ⟨_, h, fun i => firstKeys_getElem _ _ i.val i.isLt, roundCount_toNat hn, rfl⟩
  · exact absurd hn (Nat.not_le.mpr hn')
  · exact absurd hk hk'

/-- Settles O31: the engine's turn raises the error of the word, which is InvalidArgument with the INFO of its reason. -/
theorem stepCompletesAnIllegalWord : Obligations.StepCompletesAnIllegalWord := by
  unfold Obligations.StepCompletesAnIllegalWord
  intro s why hm ht hr hb hd
  calc step s
    _ = engineTurn s.popTurn := step_engine hm ht
    _ = s.popTurn.raise (CmdError.ofIllegal why) := engineTurn_illegal hr hb hd
    _ = _ := by cases why <;> rfl

/-! ### The host -/

/-- Settles O36: the write reaches CMD, and a command presented while BUSY = 1 is dropped. -/
theorem commandWriteWhileBusyIsDropped : Obligations.CommandWriteWhileBusyIsDropped := by
  unfold Obligations.CommandWriteWhileBusyIsDropped
  intro s w hr hb
  rw [hostWrite_mapped (r := .cmd) w hr rfl rfl, DesCore.writeReg, DesCore.presentCommand, if_pos hb]
  rfl

/-- Settles O52: one rule of the host's turn for each operation and each way its read ends. -/
theorem scriptOperationsTakeTheirAccess : Obligations.ScriptOperationsTakeTheirAccess := by
  unfold Obligations.ScriptOperationsTakeTheirAccess
  intro s off mask v rest
  refine ⟨fun x t hv => ?_, fun f hv => ⟨fun hs => hostTurn_rd_stop hs hv, fun hs => hostTurn_poll_stop hs hv⟩,
    hostTurn_wr, hostTurn_nil, step_host⟩
  rw [← hostRead_reads hv]
  exact ⟨fun hs => hostTurn_rd_value hs hv, fun hs => hostTurn_poll_value hs hv⟩

end Sys2Proof.Machine
end

section
/-! PROOFS. The facts about the DES functions (`spec/40_des_functions.md`): the DES bits of a permutation, rotations and the
key schedule, the bytes of a normalised key, the Feistel scaffold, complements; and the loop of a buffer command undone. -/

namespace Sys2Proof.Machine

/-! ### Entries of a list, counted from either end -/

/-- An entry in range is one of the entries. -/
theorem getD_mem {α : Type} {l : List α} {i : Nat} (d : α) (hi : i < l.length) : l.getD i d ∈ l := by
  rw [List.getD_eq_getElem?_getD, List.getElem?_eq_getElem hi, Option.getD_some]
  exact List.getElem_mem hi

/-- Entry `i` from the end. -/
theorem getD_reverse {α : Type} {l : List α} {i : Nat} (d : α) (hi : i < l.length) :
    l.reverse.getD i d = l.getD (l.length - 1 - i) d := by
  rw [List.getD_eq_getElem?_getD, List.getElem?_reverse hi, List.getD_eq_getElem?_getD]

/-! ### The DES bits of a permutation (R12, R141) -/

/-- Vectors with the same DES bits are equal. -/
theorem eq_of_desBit_eq {n : Nat} {v w : BitVec n} (h : ∀ j, 1 ≤ j → j ≤ n → desBit v j = desBit w j) : v = w := by
  apply BitVec.eq_of_getLsbD_eq
  intro i hi
  have hbit : v.getLsbD (n - (n - i)) = w.getLsbD (n - (n - i)) := h (n - i) (by omega) (by omega)
  rwa [show n - (n - i) = i by omega] at hbit

/-- DES bit `j` of a permutation is the input DES bit that entry `j` of the table names (R141). -/
theorem desBit_permute {m n : Nat} {t : List Nat} (ht : t.length = n) (v : BitVec m) {j : Nat} (h1 : 1 ≤ j) (hj : j ≤ n) :
    desBit (permute n t v) j = desBit v (t.getD (j - 1) 0) := by
  have hentry : t.reverse.getD (n - j) 0 = t.getD (j - 1) 0 := by
    rw [getD_reverse _ (by omega), show t.length - 1 - (n - j) = j - 1 by omega]
  rw [desBit, permute_getLsbD n t v (n - j) (by omega), hentry, desBit, decide_eq_true (by omega), Bool.true_and]

/-- Two permutations undo each other where the first table, read at the entries of the second, counts from 1 to the width. -/
theorem permute_permute_cancel {n : Nat} {t u : List Nat} (ht : t.length = n) (hu : u.length = n)
    (h : ∀ j, 1 ≤ j → j ≤ n → 1 ≤ u.getD (j - 1) 0 ∧ u.getD (j - 1) 0 ≤ n ∧ t.getD (u.getD (j - 1) 0 - 1) 0 = j)
    (x : BitVec n) : permute n u (permute n t x) = x := by
  apply eq_of_desBit_eq
  intro j h1 hj
  obtain ⟨hlow, hhigh, hcancel⟩ := h j h1 hj
  rw [desBit_permute hu _ h1 hj, desBit_permute ht _ hlow hhigh, hcancel]

/-- A permutation reads only the bits its table names. -/
theorem permute_congr {m n : Nat} {t : List Nat} (ht : t.length = n) {v w : BitVec m}
    (h : ∀ j ∈ t, desBit v j = desBit w j) : permute n t v = permute n t w := by
  apply eq_of_desBit_eq
  intro j h1 hj
  rw [desBit_permute ht v h1 hj, desBit_permute ht w h1 hj, h _ (getD_mem 0 (by omega))]

/-- The DES bits of a complement. -/
theorem desBit_not {n : Nat} (v : BitVec n) {j : Nat} (h1 : 1 ≤ j) (hj : j ≤ n) : desBit (~~~v) j = !desBit v j := by
  rw [desBit, BitVec.getLsbD_not, decide_eq_true (by omega), Bool.true_and, desBit]

/-- A permutation with its table in range commutes with the complement. -/
theorem permute_not {m n : Nat} {t : List Nat} (ht : t.length = n) (hrange : ∀ j ∈ t, 1 ≤ j ∧ j ≤ m) (v : BitVec m) :
    permute n t (~~~v) = ~~~(permute n t v) := by
  apply eq_of_desBit_eq
  intro j h1 hj
  obtain ⟨hlow, hhigh⟩ := hrange _ (getD_mem (i := j - 1) 0 (by omega))
  rw [desBit_not _ h1 hj, desBit_permute ht _ h1 hj, desBit_permute ht _ h1 hj, desBit_not _ hlow hhigh]

/-! The complement passes through each permutation that the complementation property meets (R169). -/

theorem ip_not (x : Block) : ip (~~~x) = ~~~(ip x) := by
  obtain ⟨⟨hlen, hrange⟩, -⟩ := tables_in_range
  exact permute_not hlen hrange x

theorem ipInv_not (x : Block) : ipInv (~~~x) = ~~~(ipInv x) := by
  obtain ⟨-, ⟨hlen, hrange⟩, -⟩ := tables_in_range
  exact permute_not hlen hrange x

theorem expand_not (r : Word) : expand (~~~r) = ~~~(expand r) := by
  obtain ⟨-, -, ⟨hlen, hrange⟩, -⟩ := tables_in_range
  exact permute_not hlen hrange r

theorem pc1_not (kn : Block) : pc1 (~~~kn) = ~~~(pc1 kn) := by
  obtain ⟨-, -, -, -, ⟨hlen, hrange⟩, -⟩ := tables_in_range
  exact permute_not hlen hrange kn

theorem pc2_not (cd : BitVec 56) : pc2 (~~~cd) = ~~~(pc2 cd) := by
  obtain ⟨-, -, -, -, -, hlen, hrange⟩ := tables_in_range
  exact permute_not hlen hrange cd

/-- IP_T and IPINV_T undo each other entry by entry, both ways (R145). -/
theorem ip_tables_inverse :
    (∀ j ≤ 64, 1 ≤ j → 1 ≤ ipTable.getD (j - 1) 0 ∧ ipTable.getD (j - 1) 0 ≤ 64 ∧
      ipInvTable.getD (ipTable.getD (j - 1) 0 - 1) 0 = j) ∧
    ∀ j ≤ 64, 1 ≤ j → 1 ≤ ipInvTable.getD (j - 1) 0 ∧ ipInvTable.getD (j - 1) 0 ≤ 64 ∧
      ipTable.getD (ipInvTable.getD (j - 1) 0 - 1) 0 = j := by
  decide +kernel

@[simp] theorem ipInv_ip (x : Block) : ipInv (ip x) = x :=
  permute_permute_cancel (n := 64) rfl rfl (fun j h1 hj => ip_tables_inverse.2 j hj h1) x

@[simp] theorem ip_ipInv (x : Block) : ip (ipInv x) = x :=
  permute_permute_cancel (n := 64) rfl rfl (fun j h1 hj => ip_tables_inverse.1 j hj h1) x

/-! ### Rotations and the key schedule (R142, R162, R163) -/

/-- ROTL28 is the rotation of the library. -/
theorem rotl28_eq_rotateLeft (x : BitVec 28) {s : Nat} (hs : s < 28) : rotl28 x s = x.rotateLeft s := by
  rw [BitVec.rotateLeft_def, Nat.mod_eq_of_lt hs, rotl28]

/-- Two rotations in a row. -/
theorem rotateLeft_rotateLeft {w : Nat} (x : BitVec w) (a b : Nat) :
    (x.rotateLeft a).rotateLeft b = x.rotateLeft (a + b) := by
  apply BitVec.eq_of_getMsbD_eq
  intro i hi
  have hmod : (b + i) % w < w := Nat.mod_lt _ (by omega)
  simp only [BitVec.getMsbD_rotateLeft, hi, hmod, decide_true, Bool.true_and, Nat.add_mod_mod, Nat.add_assoc]

theorem rotateLeft_zero {w : Nat} (x : BitVec w) : x.rotateLeft 0 = x := by
  apply BitVec.eq_of_getMsbD_eq
  intro i hi
  rw [BitVec.getMsbD_rotateLeft, Nat.zero_add, Nat.mod_eq_of_lt hi, decide_eq_true hi, Bool.true_and]

/-- Rotations in turn are one rotation by their sum. -/
theorem foldl_rotl28 {l : List Nat} (hl : ∀ s ∈ l, s < 28) (x : BitVec 28) : l.foldl rotl28 x = x.rotateLeft l.sum := by
  induction l generalizing x with
  | nil => exact (rotateLeft_zero x).symm
  | cons s l ih =>
    rw [List.foldl_cons, ih (fun r hr => hl r (.tail s hr)), rotl28_eq_rotateLeft x (hl s List.mem_cons_self),
      rotateLeft_rotateLeft, List.sum_cons]

/-- A rotation commutes with the complement. -/
theorem rotl28_not (x : BitVec 28) {s : Nat} (hs : s < 28) : rotl28 (~~~x) s = ~~~(rotl28 x s) := by
  rw [rotl28_eq_rotateLeft _ hs, rotl28_eq_rotateLeft _ hs]
  apply BitVec.eq_of_getMsbD_eq
  intro i hi
  have hmod : (s + i) % 28 < 28 := Nat.mod_lt _ (by decide)
  simp only [BitVec.getMsbD_not, BitVec.getMsbD_rotateLeft, hi, hmod, decide_true, Bool.true_and]

/-- A half of all 0s or all 1s does not change under a rotation. -/
theorem rotl28_of_constant {x : BitVec 28} (hx : x = 0 ∨ x = ~~~0) {s : Nat} (hs : s < 28) : rotl28 x s = x := by
  have hzero : rotl28 0 s = 0 := by simp [rotl28]
  rcases hx with rfl | rfl
  · exact hzero
  · rw [rotl28_not 0 hs, hzero]

/-- Every shift of the schedule is a proper rotation (R163). -/
theorem shifts_lt : ∀ s ∈ shifts, s < 28 := by decide

/-- The halves C₀ and D₀ put together again (R162). -/
theorem halves_pc1 (kn : Block) : halfC kn ++ halfD kn = pc1 kn := by
  unfold halfC halfD
  rw [BitVec.extractLsb'_append_extractLsb'_eq_extractLsb' (by decide)]
  simp

/-- The halves of a vector that is PC1 of the key. -/
theorem halves_of_append_eq_pc1 {kn : Block} {c d : BitVec 28} (h : c ++ d = pc1 kn) : halfC kn = c ∧ halfD kn = d :=
  ⟨by rw [halfC, ← h, extract_append_left], by rw [halfD, ← h, extract_append_right]⟩

/-- The loop of R162 takes PC2 of each pair of halves of the sequences that the rotations make. -/
theorem scheduleFrom_eq_map {l : List Nat} {c d : Nat → BitVec 28}
    (h : ∀ r < l.length, c (r + 1) = rotl28 (c r) (l.getD r 0) ∧ d (r + 1) = rotl28 (d r) (l.getD r 0)) :
    scheduleFrom l (c 0) (d 0) = (List.range l.length).map fun r => pc2 (c (r + 1) ++ d (r + 1)) := by
  induction l generalizing c d with
  | nil => rfl
  | cons s l ih =>
    obtain ⟨hc, hd⟩ : c 1 = rotl28 (c 0) s ∧ d 1 = rotl28 (d 0) s := h 0 (Nat.succ_pos _)
    have hrest := ih (c := fun r => c (r + 1)) (d := fun r => d (r + 1)) fun r hr => h (r + 1) (Nat.succ_lt_succ hr)
    rw [scheduleFrom, ← hc, ← hd, hrest, List.length_cons, List.range_succ_eq_map, List.map_cons, List.map_map]
    rfl

/-- The loop over complemented halves makes the complemented keys (R169). -/
theorem scheduleFrom_not {l : List Nat} (hl : ∀ s ∈ l, s < 28) (c d : BitVec 28) :
    scheduleFrom l (~~~c) (~~~d) = (scheduleFrom l c d).map (~~~·) := by
  induction l generalizing c d with
  | nil => rfl
  | cons s l ih =>
    have hs : s < 28 := hl s List.mem_cons_self
    rw [scheduleFrom, scheduleFrom, rotl28_not c hs, rotl28_not d hs, ih (fun r hr => hl r (.tail s hr)),
      ← BitVec.not_append, pc2_not, List.map_cons]

/-- The loop over halves that no rotation of it changes makes one key again and again (R170). -/
theorem scheduleFrom_of_fixed {l : List Nat} {c d : BitVec 28} (hc : ∀ s ∈ l, rotl28 c s = c)
    (hd : ∀ s ∈ l, rotl28 d s = d) : scheduleFrom l c d = List.replicate l.length (pc2 (c ++ d)) := by
  induction l with
  | nil => rfl
  | cons s l ih =>
    rw [scheduleFrom, hc s List.mem_cons_self, hd s List.mem_cons_self,
      ih (fun r hr => hc r (.tail s hr)) (fun r hr => hd r (.tail s hr)), List.length_cons, List.replicate_succ]

/-- An entry of a bank is the entry of its list. -/
theorem bank_get_eq_getElem (rk : KeyBank) (i : Fin 16) : rk.get i = rk.toList[i.val]'(by simp) := by
  rw [Vector.getElem_toList]
  rfl

/-- A key has one round key for all rounds where each of its halves is all 0s or all 1s (R170). -/
theorem keySchedule_get_of_constant {kn : Block} (hc : halfC kn = 0 ∨ halfC kn = ~~~0)
    (hd : halfD kn = 0 ∨ halfD kn = ~~~0) (i : Fin 16) : (keySchedule kn).get i = pc2 (halfC kn ++ halfD kn) := by
  have hkeys := scheduleFrom_of_fixed (fun s hs => rotl28_of_constant hc (shifts_lt s hs))
    fun s hs => rotl28_of_constant hd (shifts_lt s hs)
  simp only [bank_get_eq_getElem, keySchedule_toList, hkeys, List.getElem_replicate]

/-- The round keys are a function of PC1 of the key (R162). -/
theorem keySchedule_congr {a b : Block} (h : pc1 a = pc1 b) : keySchedule a = keySchedule b := by
  obtain ⟨hc, hd⟩ := halves_of_append_eq_pc1 ((halves_pc1 a).trans h)
  rw [← Vector.toList_inj, keySchedule_toList, keySchedule_toList, hc, hd]

/-- The complemented key has the complemented round keys (R169). -/
theorem keySchedule_not_toList (kn : Block) : (keySchedule (~~~kn)).toList = (keySchedule kn).toList.map (~~~·) := by
  have hpc1 : ~~~(halfC kn) ++ ~~~(halfD kn) = pc1 (~~~kn) := by rw [pc1_not, ← halves_pc1, BitVec.not_append]
  obtain ⟨hc, hd⟩ := halves_of_append_eq_pc1 hpc1
  rw [keySchedule_toList, keySchedule_toList, hc, hd, scheduleFrom_not shifts_lt]

/-! ### The bytes of a normalised key (R13, R164) -/

/-- Par keeps the high seven bits. -/
theorem par_high (b : Byte) : (par b).extractLsb' 1 7 = b.extractLsb' 1 7 := extract_append_left _ _

/-- Par keeps each bit above the lowest. -/
theorem par_getLsbD_succ (b : Byte) {i : Nat} (hi : i < 7) : (par b).getLsbD (i + 1) = b.getLsbD (i + 1) := by
  have h : ((par b).extractLsb' 1 7).getLsbD i = (b.extractLsb' 1 7).getLsbD i := by rw [par_high]
  rwa [BitVec.getLsbD_extractLsb', BitVec.getLsbD_extractLsb', decide_eq_true hi, Bool.true_and, Bool.true_and,
    Nat.add_comm 1 i] at h

/-- The low bit that Par sets says that the other seven hold an even number of 1 bits. -/
theorem par_getLsbD_zero (b : Byte) :
    (par b).getLsbD 0 = decide (((List.range 7).countP fun i => b.getLsbD (i + 1)) % 2 = 0) := by
  have hlow : (par b).extractLsb' 0 1 =
      if ((List.range 7).countP fun i => b.getLsbD (i + 1)) % 2 = 0 then 1#1 else 0#1 := extract_append_right _ _
  have hbit : ((par b).extractLsb' 0 1).getLsbD 0 = (par b).getLsbD 0 := by simp
  rw [← hbit, hlow]
  split
  · next heven => simp [heven]
  · next hodd => simp [hodd]

/-- Par makes the number of 1 bits odd: the low bit completes the count of the other seven. -/
theorem par_oddParity (b : Byte) : oddParity (par b) := by
  have hhigh : (List.range 7).countP (fun i => (par b).getLsbD (i + 1)) = (List.range 7).countP fun i => b.getLsbD (i + 1) :=
    List.countP_congr fun i hi => by rw [par_getLsbD_succ b (List.mem_range.mp hi)]
  rw [oddParity, List.range_succ_eq_map, List.countP_cons, List.countP_map, par_getLsbD_zero]
  change ((List.range 7).countP (fun i => (par b).getLsbD (i + 1)) + _) % 2 = 1
  rw [hhigh]
  simp only [decide_eq_true_eq]
  split <;> omega

/-- One more byte at the end shifts the others up. -/
theorem vectorOfBytes_snoc (n : Nat) (bs : List Byte) (b : Byte) :
    vectorOfBytes n (bs ++ [b]) = (vectorOfBytes n bs <<< 8) ||| b.setWidth n := by
  simp [vectorOfBytes]

/-- Bit `k` of a byte string written backwards. -/
theorem vectorOfBytes_reverse_getLsbD {n : Nat} (l : List Byte) {k : Nat} (hk : k < n) :
    (vectorOfBytes n l.reverse).getLsbD k = (l.getD (k / 8) 0).getLsbD (k % 8) := by
  induction l generalizing k with
  | nil => simp [vectorOfBytes]
  | cons b l ih =>
    rw [List.reverse_cons, vectorOfBytes_snoc, BitVec.getLsbD_or, BitVec.getLsbD_shiftLeft, BitVec.getLsbD_setWidth]
    by_cases h : k < 8
    · simp [h, hk, Nat.div_eq_of_lt h, Nat.mod_eq_of_lt h]
    · rw [ih (by omega), BitVec.getLsbD_of_ge b k (by omega), show k / 8 = (k - 8) / 8 + 1 by omega, List.getD_cons_succ,
        show k % 8 = (k - 8) % 8 by omega]
      simp [h, hk]

/-- Bit `k` of a byte string is bit `k % 8` of the byte that stands `k / 8` from its end (R13). -/
theorem vectorOfBytes_getLsbD {n : Nat} (bs : List Byte) {k : Nat} (hk : k < n) :
    (vectorOfBytes n bs).getLsbD k = (bs.reverse.getD (k / 8) 0).getLsbD (k % 8) := by
  simpa using vectorOfBytes_reverse_getLsbD bs.reverse hk

/-- Byte `i` of the block of eight bytes. -/
theorem blockByte_vectorOfBytes {bs : List Byte} (hlen : bs.length = 8) {i : Nat} (hi : i < 8) :
    blockByte (vectorOfBytes 64 bs) i = bs.getD i 0 := by
  apply BitVec.eq_of_getLsbD_eq
  intro k hk
  rw [blockByte, BitVec.getLsbD_extractLsb', decide_eq_true hk, Bool.true_and, vectorOfBytes_getLsbD bs (by omega),
    getD_reverse _ (by omega), show bs.length - 1 - (56 - 8 * i + k) / 8 = i by omega,
    show (56 - 8 * i + k) % 8 = k by omega]

/-- A bit of a block is a bit of one of its bytes. -/
theorem getLsbD_eq_blockByte (x : Block) {k : Nat} (hk : k < 64) :
    x.getLsbD k = (blockByte x (7 - k / 8)).getLsbD (k % 8) := by
  rw [blockByte, BitVec.getLsbD_extractLsb', decide_eq_true (by omega), Bool.true_and,
    show 56 - 8 * (7 - k / 8) + k % 8 = k by omega]

/-- The first seven bytes of a key are its upper 56 bits (R41). -/
theorem vectorOfBytes_keyBytes_seven (key : Block) : vectorOfBytes 56 (keyBytes 7 key) = key.extractLsb' 8 56 := by
  have hlen : (keyBytes 7 key).length = 7 := by simp [keyBytes]
  apply BitVec.eq_of_getLsbD_eq
  intro k hk
  have hbyte : (keyBytes 7 key).getD (6 - k / 8) 0 = key.extractLsb' (56 - 8 * (6 - k / 8)) 8 := by
    simp [keyBytes, List.getD_eq_getElem?_getD, show 6 - k / 8 < 7 by omega]
  rw [vectorOfBytes_getLsbD _ hk, getD_reverse _ (by omega), hlen, hbyte, BitVec.getLsbD_extractLsb',
    BitVec.getLsbD_extractLsb', decide_eq_true hk, decide_eq_true (by omega),
    show 56 - 8 * (6 - k / 8) + k % 8 = 8 + k by omega]

/-- Byte `i` of the normalised 8-byte key (R164). -/
theorem blockByte_keyNorm_eight (key : Block) {i : Nat} (hi : i < 8) :
    blockByte (keyNorm (keyBytes 8 key) 8) i = par (blockByte key i) := by
  have hlen : ((keyBytes 8 key).map par).length = 8 := by simp [keyBytes]
  refine (blockByte_vectorOfBytes hlen hi).trans ?_
  simp [keyBytes, List.getD_eq_getElem?_getD, hi, blockByte]

/-- Byte `i` of the normalised 7-byte key (R164). -/
theorem blockByte_keyNorm_seven (key : Block) {i : Nat} (hi : i < 8) :
    blockByte (keyNorm (keyBytes 7 key) 7) i = par (key.extractLsb' (57 - 7 * i) 7 ++ 0#1) := by
  have hspread : (key.extractLsb' 8 56).extractLsb' (49 - 7 * i) 7 = key.extractLsb' (57 - 7 * i) 7 := by
    apply BitVec.eq_of_getLsbD_eq
    intro k hk
    simp only [BitVec.getLsbD_extractLsb', hk, show 49 - 7 * i + k < 56 by omega, decide_true, Bool.true_and,
      show 8 + (49 - 7 * i + k) = 57 - 7 * i + k by omega]
  refine (blockByte_vectorOfBytes (by simp) hi).trans ?_
  simp only [List.getD_eq_getElem?_getD, List.getElem?_map, List.getElem?_range hi, Option.map_some, Option.getD_some,
    vectorOfBytes_keyBytes_seven, hspread]

/-- The parity regeneration keeps every bit that is not the low bit of its byte (R164). -/
theorem keyNorm_eight_getLsbD (key : Block) {k : Nat} (hk : k < 64) (h : k % 8 ≠ 0) :
    (keyNorm (keyBytes 8 key) 8).getLsbD k = key.getLsbD k := by
  obtain ⟨i, hi⟩ := Nat.exists_eq_succ_of_ne_zero h
  rw [getLsbD_eq_blockByte _ hk, getLsbD_eq_blockByte key hk, blockByte_keyNorm_eight key (by omega), hi,
    par_getLsbD_succ _ (by omega)]

/-- PC1 names no low bit of a byte (R160, R165). -/
theorem pc1Table_omits_lowBits : ∀ j ∈ pc1Table, 64 - j < 64 ∧ (64 - j) % 8 ≠ 0 := by decide

/-- Keys that agree but in the low bits of their bytes have the same round keys (R165). -/
theorem keySchedule_of_highBits {a b : Block} (h : ∀ i < 64, i % 8 ≠ 0 → a.getLsbD i = b.getLsbD i) :
    keySchedule a = keySchedule b := by
  refine keySchedule_congr (permute_congr (n := 56) rfl fun j hj => ?_)
  obtain ⟨hlt, hhigh⟩ := pc1Table_omits_lowBits j hj
  exact h (64 - j) hlt hhigh

/-! ### The Feistel scaffold (R166) -/

/-- The scaffold runs the rounds on the halves of the block and exchanges what they leave. -/
theorem feistel_eq (ks : List RoundKey) (x : Block) :
    feistel ks x = (feistelRounds ks (hi64 x, lo64 x)).2 ++ (feistelRounds ks (hi64 x, lo64 x)).1 := rfl

/-- The scaffold on two halves put together. -/
theorem feistel_append (ks : List RoundKey) (l r : Word) :
    feistel ks (l ++ r) = (feistelRounds ks (l, r)).2 ++ (feistelRounds ks (l, r)).1 := by
  rw [feistel_eq, hi64_append, lo64_append]

/-- The rounds walk along every sequence of halves that obeys the recurrence. -/
theorem feistelRounds_eq_of_recurrence {ks : List RoundKey} {l r : Nat → Word}
    (h : ∀ n (hn : n < ks.length), l (n + 1) = r n ∧ r (n + 1) = l n ^^^ roundFunction (r n) ks[n]) :
    feistelRounds ks (l 0, r 0) = (l ks.length, r ks.length) := by
  induction ks generalizing l r with
  | nil => rfl
  | cons k ks ih =>
    obtain ⟨hl, hr⟩ : l 1 = r 0 ∧ r 1 = l 0 ^^^ roundFunction (r 0) k := h 0 (Nat.succ_pos _)
    have hround : feistelRound (l 0, r 0) k = (l 1, r 1) := by rw [feistelRound, hl, hr]
    rw [feistelRounds_cons, hround]
    exact ih (l := fun n => l (n + 1)) (r := fun n => r (n + 1)) fun n hn => h (n + 1) (Nat.succ_lt_succ hn)

/-- A round undoes itself on exchanged halves. -/
theorem feistelRound_swap_cancel (lr : Word × Word) (k : RoundKey) : feistelRound (feistelRound lr k).swap k = lr.swap := by
  simp only [feistelRound, Prod.swap, BitVec.xor_assoc, BitVec.xor_self, BitVec.xor_zero]

/-- The rounds with the keys in reverse undo the rounds, on exchanged halves. -/
theorem feistelRounds_reverse_swap (ks : List RoundKey) (lr : Word × Word) :
    feistelRounds ks.reverse (feistelRounds ks lr).swap = lr.swap := by
  induction ks generalizing lr with
  | nil => rfl
  | cons k ks ih =>
    rw [List.reverse_cons, feistelRounds_append, feistelRounds_cons k ks, ih, feistelRounds_cons, feistelRound_swap_cancel,
      feistelRounds_nil]

/-- The scaffold with the keys in reverse undoes the scaffold, thanks to its final swap (R168). -/
theorem feistel_reverse_feistel (ks : List RoundKey) (x : Block) : feistel ks.reverse (feistel ks x) = x := by
  have hundo := feistelRounds_reverse_swap ks (hi64 x, lo64 x)
  rw [Prod.swap] at hundo
  rw [feistel_eq ks x, feistel_append, hundo]
  exact Memory.halves_join x

theorem keyOrder_enc (rk : KeyBank) : keyOrder rk .enc = rk.toList := rfl

theorem keyOrder_dec (rk : KeyBank) : keyOrder rk .dec = rk.toList.reverse := rfl

/-- A direction whose key order is the reverse of another's undoes it (R168). -/
theorem desBlock_desBlock_of_reverse {rk : KeyBank} {dir dir' : Direction}
    (h : keyOrder rk dir' = (keyOrder rk dir).reverse) (x : Block) : desBlock (desBlock x rk dir) rk dir' = x := by
  rw [desBlock, desBlock, ip_ipInv, h, feistel_reverse_feistel, ipInv_ip]

theorem desBlock_dec_enc (rk : KeyBank) (x : Block) : desBlock (desBlock x rk .enc) rk .dec = x :=
  desBlock_desBlock_of_reverse rfl x

theorem desBlock_enc_dec (rk : KeyBank) (x : Block) : desBlock (desBlock x rk .dec) rk .enc = x :=
  desBlock_desBlock_of_reverse (List.reverse_reverse _).symm x

/-- A bank of one key reads the same in both directions (R170). -/
theorem OneKey.keyOrder_eq {rk : KeyBank} (h : OneKey rk) : keyOrder rk .dec = keyOrder rk .enc := by
  obtain ⟨k, hk⟩ := h
  have hlist : rk.toList = List.replicate 16 k := by
    refine List.ext_getElem (by simp) fun i hi _ => ?_
    rw [List.getElem_replicate, ← hk ⟨i, by simpa using hi⟩, bank_get_eq_getElem]
  rw [keyOrder_dec, keyOrder_enc, hlist, List.reverse_replicate]

/-! ### Complements (R169) -/

/-- A part of a complement is the complement of the part. -/
theorem extract_not {w : Nat} (x : BitVec w) {start len : Nat} (h : start + len ≤ w) :
    (~~~x).extractLsb' start len = ~~~(x.extractLsb' start len) := by
  apply BitVec.eq_of_getLsbD_eq
  intro i hi
  simp [hi, show start + i < w by omega]

/-- F does not see that both its operands are complemented: EXP complements with its operand, and the sum does not
change. -/
theorem roundFunction_not_not (r : Word) (k : RoundKey) : roundFunction (~~~r) (~~~k) = roundFunction r k := by
  rw [roundFunction, roundFunction, expand_not, ← BitVec.not_xor_left, ← BitVec.not_xor_right, BitVec.not_not]

/-- Rounds with complemented keys on complemented halves. -/
theorem feistelRounds_not (ks : List RoundKey) (lr : Word × Word) :
    feistelRounds (ks.map (~~~·)) (~~~lr.1, ~~~lr.2) = (~~~(feistelRounds ks lr).1, ~~~(feistelRounds ks lr).2) := by
  induction ks generalizing lr with
  | nil => rfl
  | cons k ks ih =>
    have hround : feistelRound (~~~lr.1, ~~~lr.2) (~~~k) = (~~~(feistelRound lr k).1, ~~~(feistelRound lr k).2) := by
      rw [feistelRound, feistelRound, roundFunction_not_not, BitVec.not_xor_left]
    rw [List.map_cons, feistelRounds_cons, feistelRounds_cons, hround, ih]

/-- The scaffold with complemented keys on a complemented block. -/
theorem feistel_not (ks : List RoundKey) (x : Block) : feistel (ks.map (~~~·)) (~~~x) = ~~~(feistel ks x) := by
  have hhi : hi64 (~~~x) = ~~~(hi64 x) := extract_not x (by decide)
  have hlo : lo64 (~~~x) = ~~~(lo64 x) := extract_not x (by decide)
  rw [feistel_eq, feistel_eq, hhi, hlo, feistelRounds_not ks (hi64 x, lo64 x), BitVec.not_append]

/-! ### The loop of a buffer command, undone (R219) -/

/-- The loop with an inverse function over the same range gives the memory back, as equal data. -/
theorem Memory.mapBlocks_cancel {f g : Block → Block} (hgf : ∀ x, g (f x) = x) {m n : Memory} {j c : Nat} (hm : m.wf)
    (h : mapBlocks f m j c = some n) : mapBlocks g n j c = some m := by
  obtain ⟨hin, hout, hwf⟩ := mapBlocks_some h
  have hwritten : (mapBlocks g n j c).isSome = true := (mapBlocks_isSome_iff g n j c).mpr fun i h1 h2 => by
    obtain ⟨x, -, hx⟩ := hin i h1 h2
    rw [hx, Option.isSome_some]
  obtain ⟨p, hp⟩ := Option.isSome_iff_exists.mp hwritten
  obtain ⟨hin', hout', hwf'⟩ := mapBlocks_some hp
  have hread : ∀ a, p.read a = m.read a := by
    intro a
    by_cases ha : a < 0x8000 + 8 * j ∨ 0x8000 + 8 * (j + c) ≤ a
    · rw [hout' a ha, hout a ha]
    · obtain ⟨i, h1, h2, hlow, hhigh⟩ : ∃ i, j ≤ i ∧ i < j + c ∧ 0x8000 + 8 * i ≤ a ∧ a < 0x8008 + 8 * i :=
        ⟨(a - 0x8000) / 8, by omega, by omega, by omega, by omega⟩
      obtain ⟨x, hx, hfx⟩ := hin i h1 h2
      obtain ⟨y, hy, hgy⟩ := hin' i h1 h2
      obtain rfl : f x = y := Option.some.inj (hfx.symm.trans hy)
      rw [hgf] at hgy
      exact read_of_bufRead hgy hx a hlow hhigh
  rw [hp, ext_of_read (hwf' (hwf hm)) hm hread]

/-- A buffer command in one direction restores what the command in the other did over the same latched range: the second
finds the key, the range and the written blocks that the first left, or fails as the first did. -/
theorem cryptBuffer_restores {dir dir' : Direction} {s t : State} (hm : s.des.buf.wf) (hi : s.des.init = true)
    (hinv : ∀ x, desBlock (desBlock x s.des.rk dir) s.des.rk dir' = x) (h : cryptBuffer dir s = .next t) :
    ∃ u, cryptBuffer dir' t = .next u ∧ u.des.buf = s.des.buf := by
  rcases cryptBuffer_cases dir s with ⟨hi', -⟩ | ⟨-, hr, q⟩ | ⟨-, -, -, q⟩ | ⟨m, -, hr, hmap, q⟩
  · exact absurd (hi'.symm.trans hi) (by decide)
  · obtain rfl := Host.Outcome.next.inj (q.symm.trans h)
    exact ⟨_, cryptBuffer_outOfRange dir' (s := { s with des := s.des.failWith .bufferRange }) hi hr, rfl⟩
  · cases q.symm.trans h
  · obtain rfl := Host.Outcome.next.inj (q.symm.trans h)
    have hback : m.mapBlocks (fun x => desBlock x s.des.rk dir') s.des.latch.base.toNat s.des.latch.cnt.toNat =
        some s.des.buf :=
      Memory.mapBlocks_cancel (f := fun x => desBlock x s.des.rk dir) (g := fun x => desBlock x s.des.rk dir') hinv hm hmap
    have hcomplete := cryptBuffer_complete dir' (s := { s with des := DesCore.finish { s.des with buf := m } }) hi hr hback
    exact ⟨_, hcomplete, rfl⟩

end Sys2Proof.Machine
end

section
/-! PROOFS. The obligations on the DES functions and on the commands that apply them (`spec/40_des_functions.md`,
`spec/42_block_commands.md`). -/

namespace Sys2Proof.Machine

/-! ### Permutations -/

/-- Settles O5: the rule holds of every table of the right length, in range or not. -/
theorem permuteMovesDesBits : Obligations.PermuteMovesDesBits := by
  unfold Obligations.PermuteMovesDesBits
  exact fun _ _ _ v hlen _ _ h1 hj => desBit_permute hlen v h1 hj

/-- Settles O6: the tables are compared entry by entry, and the blocks bit by bit. -/
theorem initialPermutationsInverse : Obligations.InitialPermutationsInverse := by
  unfold Obligations.InitialPermutationsInverse
  refine ⟨fun j h1 hj => ?_, fun x => ⟨ipInv_ip x, ip_ipInv x⟩⟩
  obtain ⟨-, -, hcancel⟩ := ip_tables_inverse.1 j hj h1
  exact hcancel

/-! ### Keys -/

/-- Settles O7: the loop of the schedule walks along the sequences of halves; the worked example is evaluated. -/
theorem roundKeysFollowTheRotations : Obligations.RoundKeysFollowTheRotations := by
  unfold Obligations.RoundKeysFollowTheRotations
  refine ⟨fun kn c d h0 hstep r => ?_, by decide +kernel⟩
  obtain ⟨hc, hd⟩ := halves_of_append_eq_pc1 h0
  have hkeys : (keySchedule kn).toList = (List.range 16).map fun r => pc2 (c (r + 1) ++ d (r + 1)) := by
    rw [keySchedule_toList, hc, hd]
    exact scheduleFrom_eq_map hstep
  simp only [bank_get_eq_getElem, hkeys, List.getElem_map, List.getElem_range]

/-- Settles O8: the sixteen rotations are one rotation by 28 places. -/
theorem sixteenRotationsReturn : Obligations.SixteenRotationsReturn := by
  unfold Obligations.SixteenRotationsReturn
  refine ⟨rfl, rfl, fun c => ?_⟩
  calc shifts.foldl rotl28 c
    _ = c.rotateLeft 28 := foldl_rotl28 shifts_lt c
    _ = c.rotateLeft 0 := BitVec.rotateLeft_mod_eq_rotateLeft.symm
    _ = c := rotateLeft_zero c

/-- Settles O9: each byte of a normalised key is Par of the byte it comes from; the worked examples are evaluated. -/
theorem keyNormalisationSpreadsAndSetsParity : Obligations.KeyNormalisationSpreadsAndSetsParity := by
  unfold Obligations.KeyNormalisationSpreadsAndSetsParity
  refine ⟨fun key i hi => ?_, by decide +kernel⟩
  rw [blockByte_keyNorm_eight key hi, blockByte_keyNorm_seven key hi]
  exact ⟨⟨par_high _, par_oddParity _⟩, (par_high _).trans (extract_append_left _ _), par_oddParity _⟩

/-- Settles O10: PC1 names no low bit of a byte, and Par changes nothing else. -/
theorem parityBitsNeverReachRoundKeys : Obligations.ParityBitsNeverReachRoundKeys := by
  unfold Obligations.ParityBitsNeverReachRoundKeys
  exact ⟨fun _ _ => keySchedule_of_highBits,
    fun key => keySchedule_of_highBits fun _ hk h => keyNorm_eight_getLsbD key hk h⟩

/-! ### The block transform -/

/-- Settles O11: the rounds walk along the sequence of halves. -/
theorem feistelSwapsTheLastHalves : Obligations.FeistelSwapsTheLastHalves := by
  unfold Obligations.FeistelSwapsTheLastHalves
  rintro ks _ l r rfl hstep
  have hlen : ks.toList.length = 16 := by simp
  have hrounds : feistelRounds ks.toList (l 0, r 0) = (l ks.toList.length, r ks.toList.length) :=
    feistelRounds_eq_of_recurrence fun n hn => by
      have hn16 : n < 16 := hlen ▸ hn
      have hkey := hstep n hn16
      rwa [bank_get_eq_getElem] at hkey
  rw [feistel_append, hrounds, hlen]

/-- Settles O12: each direction uses the keys in the reverse of the other's order. -/
theorem decryptionInvertsEncryption : Obligations.DecryptionInvertsEncryption := by
  unfold Obligations.DecryptionInvertsEncryption
  exact fun rk x => ⟨desBlock_dec_enc rk x, desBlock_enc_dec rk x⟩

/-- Settles O13: the complement passes through IP, the round keys, the scaffold and IP⁻¹. -/
theorem complementationProperty : Obligations.ComplementationProperty := by
  unfold Obligations.ComplementationProperty
  intro kn x
  rw [desBlock, desBlock, keyOrder_enc, keyOrder_enc, keySchedule_not_toList, ip_not, feistel_not, ipInv_not]

/-- The halves of the four weak keys are all 0s or all 1s (R170). -/
theorem weakKey_halves :
    ∀ kn ∈ [0x0101010101010101#64, 0xFEFEFEFEFEFEFEFE#64, 0xE0E0E0E0F1F1F1F1#64, 0x1F1F1F1F0E0E0E0E#64],
      (halfC kn = 0 ∨ halfC kn = ~~~0) ∧ (halfD kn = 0 ∨ halfD kn = ~~~0) := by
  simp only [List.forall_mem_cons, List.not_mem_nil, false_implies, implies_true, and_true]
  decide +kernel

/-- Settles O15: one key read backwards is one key, and the rotations leave the halves of the four keys alone. -/
theorem weakKeysMakeInvolutions : Obligations.WeakKeysMakeInvolutions := by
  unfold Obligations.WeakKeysMakeInvolutions
  refine ⟨fun rk x h => ⟨?_, ?_⟩, fun kn hkn => ?_, fun i => ?_⟩
  · rw [desBlock, desBlock, h.keyOrder_eq]
  · exact desBlock_desBlock_of_reverse h.keyOrder_eq.symm x
  · obtain ⟨hc, hd⟩ := weakKey_halves kn hkn
    exact ⟨_, keySchedule_get_of_constant hc hd⟩
  · have hc : halfC 0x0101010101010101#64 = 0 := by decide +kernel
    have hd : halfD 0x0101010101010101#64 = 0 := by decide +kernel
    rw [keySchedule_get_of_constant (.inl hc) (.inl hd), hc, hd]
    decide +kernel

/-! ### Commands -/

/-- Settles O21: the two block commands are one transform in two directions. -/
theorem blockCommandsWriteDout : Obligations.BlockCommandsWriteDout := by
  unfold Obligations.BlockCommandsWriteDout
  intro _ _ s hi
  have henc := cryptBlock_init .enc s hi
  have hdec := cryptBlock_init .dec s hi
  rw [desBlock, keyOrder_enc] at henc
  rw [desBlock, keyOrder_dec] at hdec
  exact ⟨henc, hdec⟩

/-- Settles O22: ROUND_F has no check, and F is the three layers written out. -/
theorem roundFWritesHout : Obligations.RoundFWritesHout := by
  unfold Obligations.RoundFWritesHout
  exact fun _ _ s => complete_eq s { s.des with hout := roundFunction s.des.latch.hin s.des.latch.rkin }

/-- Settles O25: the transforms of the two directions undo each other on every block of the range. -/
theorem decBufRestoresWhatEncBufDid : Obligations.DecBufRestoresWhatEncBufDid := by
  unfold Obligations.DecBufRestoresWhatEncBufDid
  intro _ _ _ _ s t hs hi
  exact ⟨cryptBuffer_restores hs.core.canonical hi (desBlock_dec_enc s.des.rk),
    cryptBuffer_restores hs.core.canonical hi (desBlock_enc_dec s.des.rk)⟩

end Sys2Proof.Machine
end

section
/-! PROOFS. Which turns can change the key banks, and the obligations on the key commands (`spec/41_key_commands.md`). -/

namespace Sys2Proof.Machine

/-- The active key is the same: RK, INIT and KNORM (R60, R190). -/
structure DesCore.SameActiveKey (d e : DesCore) : Prop where
  rk : d.rk = e.rk
  init : d.init = e.init
  knorm : d.knorm = e.knorm

/-- The expansion bank is the same: XRK and XRKN (R61, R193). -/
structure DesCore.SameExpansion (d e : DesCore) : Prop where
  xrk : d.xrk = e.xrk
  xrkn : d.xrkn = e.xrkn

/-- A core in which RK, INIT or KNORM differs has another active key. -/
theorem DesCore.not_sameActiveKey {d e : DesCore} (h : d.rk ≠ e.rk ∨ d.init ≠ e.init ∨ d.knorm ≠ e.knorm) :
    ¬ d.SameActiveKey e := by
  intro same
  rcases h with h | h | h
  · exact h same.rk
  · exact h same.init
  · exact h same.knorm

/-- A core in which XRK or XRKN differs has another expansion bank. -/
theorem DesCore.not_sameExpansion {d e : DesCore} (h : d.xrk ≠ e.xrk ∨ d.xrkn ≠ e.xrkn) : ¬ d.SameExpansion e := by
  intro same
  rcases h with h | h
  · exact h same.xrk
  · exact h same.xrkn

/-- No register write reaches a bank: the registers that show them are read only (R84). -/
theorem DesCore.writeReg_keeps_banks (d : DesCore) (r : Reg) (v : Word) :
    (d.writeReg r v).SameActiveKey d ∧ (d.writeReg r v).SameExpansion d := by
  cases r with
  | cmd =>
    rw [DesCore.writeReg, DesCore.presentCommand]
    split
    · exact ⟨⟨rfl, rfl, rfl⟩, ⟨rfl, rfl⟩⟩
    · exact ⟨⟨rfl, rfl, rfl⟩, ⟨rfl, rfl⟩⟩
  | _ => exact ⟨⟨rfl, rfl, rfl⟩, ⟨rfl, rfl⟩⟩

/-- The host's turn reaches no bank (R80, R84). -/
theorem hostTurn_keeps_banks {s t : State} (h : hostTurn s = .next t) :
    t.des.SameActiveKey s.des ∧ t.des.SameExpansion s.des := by
  obtain ⟨hd | ⟨-, hd⟩ | ⟨off, v, r, -, -, -, hd⟩, -⟩ := hostTurn_next h <;> rw [hd]
  · exact ⟨⟨rfl, rfl, rfl⟩, ⟨rfl, rfl⟩⟩
  · exact ⟨⟨rfl, rfl, rfl⟩, ⟨rfl, rfl⟩⟩
  · exact s.des.writeReg_keeps_banks r v

/-- Of the commands' effects only those of KEY_INIT and ZEROIZE reach the active key (R191). -/
theorem Effect.activeKey {s : State} {i : Instr} {d : DesCore} (h : Effect s i d) :
    d.SameActiveKey s.des ∨ ∃ k n, i = .keyInit k n ∨ i = .zeroize k n := by
  cases h with
  | keyInit klen nrk => exact .inr ⟨klen, nrk, .inl rfl⟩
  | zeroize klen nrk => exact .inr ⟨klen, nrk, .inr rfl⟩
  | _ => exact .inl ⟨rfl, rfl, rfl⟩

/-- Of the commands' effects only those of KEY_EXPAND and ZEROIZE reach the expansion bank (R193, R196). -/
theorem Effect.expansion {s : State} {i : Instr} {d : DesCore} (h : Effect s i d) :
    d.SameExpansion s.des ∨ ∃ k n, i = .keyExpand k n ∨ i = .zeroize k n := by
  cases h with
  | keyExpand klen nrk => exact .inr ⟨klen, nrk, .inl rfl⟩
  | zeroize klen nrk => exact .inr ⟨klen, nrk, .inr rfl⟩
  | _ => exact .inl ⟨rfl, rfl⟩

/-- The engine's turn reaches a bank only by the effect of the command in flight: an error writes the status alone (R242). -/
theorem engineTurn_banks {s t : State} (h : engineTurn s = .next t) :
    (t.des.SameActiveKey s.des ∧ t.des.SameExpansion s.des) ∨
    ∃ i d, s.des.busy = true ∧ decode s.des.latch.cmd = .command i ∧ Effect s i d ∧ t.des = d.finish := by
  rcases engineTurn_cases s with ⟨-, q⟩ | ⟨i, -, hb, hdec, q⟩ | ⟨why, -, -, -, q⟩ <;> rw [q] at h
  · cases h
    exact .inl ⟨⟨rfl, rfl, rfl⟩, ⟨rfl, rfl⟩⟩
  · rcases exec_next h with ⟨e, rfl⟩ | ⟨d, heff, rfl⟩
    · exact .inl ⟨⟨rfl, rfl, rfl⟩, ⟨rfl, rfl⟩⟩
    · exact .inr ⟨i, d, hb, hdec, heff, rfl⟩
  · cases h
    exact .inl ⟨⟨rfl, rfl, rfl⟩, ⟨rfl, rfl⟩⟩

/-- A step reaches a bank only by asserting `rst` or by the effect of a command that completes without error. -/
theorem step_banks {s t : State} (h : step s = .next t) :
    (t.des.SameActiveKey s.des ∧ t.des.SameExpansion s.des) ∨ s.turn = .rstAssert ∨
    ∃ i d, s.turn = .engine ∧ s.des.busy = true ∧ decode s.des.latch.cmd = .command i ∧ Effect s.popTurn i d ∧
      t.des = d.finish := by
  rcases step_next h with ⟨-, h⟩ | ⟨hturn, h⟩ | ⟨hturn, -⟩ | ⟨-, rfl⟩
  · exact .inl (hostTurn_keeps_banks (s := s.popTurn) h)
  · rcases engineTurn_banks h with same | ⟨i, d, hb, hdec, heff, ht⟩
    · exact .inl same
    · exact .inr (.inr ⟨i, d, hturn, hb, hdec, heff, ht⟩)
  · exact .inr (.inl hturn)
  · exact .inl ⟨⟨rfl, rfl, rfl⟩, ⟨rfl, rfl⟩⟩

/-- Settles O55: of what can reach a bank, the effect of a command is that of one of the two the rule names. -/
theorem onlyKeyCommandsChangeTheBanks : Obligations.OnlyKeyCommandsChangeTheBanks := by
  unfold Obligations.OnlyKeyCommandsChangeTheBanks
  intro s t h
  rcases step_banks h with ⟨sameKey, sameExp⟩ | hrst | ⟨i, d, hturn, hb, hdec, heff, ht⟩
  · exact ⟨fun hne => absurd sameKey (DesCore.not_sameActiveKey hne),
      fun hne => absurd sameExp (DesCore.not_sameExpansion hne)⟩
  · exact ⟨fun _ => .inl hrst, fun _ => .inl hrst⟩
  · have herr : t.des.errCode = 0 := by rw [ht, DesCore.finish_errCode]
    refine ⟨fun hne => .inr ⟨hturn, hb, herr, ?_⟩, fun hne => .inr ⟨hturn, hb, herr, ?_⟩⟩ <;> rw [ht] at hne
    · rcases heff.activeKey with same | ⟨k, n, hi⟩
      · exact absurd same (DesCore.not_sameActiveKey hne)
      · exact ⟨k, n, hi.imp (hdec.trans <| congrArg _ ·) (hdec.trans <| congrArg _ ·)⟩
    · rcases heff.expansion with same | ⟨k, n, hi⟩
      · exact absurd same (DesCore.not_sameExpansion hne)
      · exact ⟨k, n, hi.imp (hdec.trans <| congrArg _ ·) (hdec.trans <| congrArg _ ·)⟩

end Sys2Proof.Machine
end

section
/-! PROOFS. The host's rounds are the rounds of the scaffold, a buffer command over a written range, and the obligations on
the block commands (`spec/42_block_commands.md`). -/

namespace Sys2Proof.Machine

/-! ### ROUND_F -/

/-- Rounds driven by the host are the rounds of the scaffold, from every state: no ROUND_F has a check that could fail, and
each answers F of the operands placed in its latch (R214, R215). -/
theorem hostRounds_eq_feistelRounds (s : State) (ks : List RoundKey) (lr : Word × Word) :
    hostRounds s ks lr = some (feistelRounds ks lr) := by
  induction ks generalizing s lr with
  | nil => rfl
  | cons k ks ih => exact ih _ (feistelRound lr k)

/-- Settles O14: EXP passes the complement on to the sum, where that of the key cancels it. -/
theorem roundFunctionIgnoresJointComplement : Obligations.RoundFunctionIgnoresJointComplement := by
  unfold Obligations.RoundFunctionIgnoresJointComplement
  exact roundFunction_not_not

/-- Settles O16: ENC_BLOCK runs the same rounds between IP and IP⁻¹, and its scaffold ends in the swap. -/
theorem sixteenHostRoundsEqualEncBlock : Obligations.SixteenHostRoundsEqualEncBlock := by
  unfold Obligations.SixteenHostRoundsEqualEncBlock
  intro s _ _ hi
  refine ⟨_, _, hostRounds_eq_feistelRounds s _ _, cryptBlock_init .enc s hi, ?_⟩
  rw [DesCore.finish_dout, desBlock, keyOrder_enc, feistel_eq]

/-! ### ENC_BUF and DEC_BUF -/

/-- A buffer command over a written range in the buffer: the loop meets no unwritten block, and what it leaves is the
buffer (R216, R219). -/
theorem cryptBuffer_written (dir : Direction) {s : State} (hi : s.des.init = true)
    (hr : s.des.latch.base.toNat + s.des.latch.cnt.toNat ≤ s.cfg.bufBlocks)
    (hw : ∀ j, s.des.latch.base.toNat ≤ j → j < s.des.latch.base.toNat + s.des.latch.cnt.toNat →
      (s.des.buf.bufRead j).isSome = true) :
    ∃ m, s.des.buf.mapBlocks (fun x => desBlock x s.des.rk dir) s.des.latch.base.toNat s.des.latch.cnt.toNat = some m ∧
      cryptBuffer dir s = s.complete { s.des with buf := m } := by
  obtain ⟨m, hm⟩ := Option.isSome_iff_exists.mp ((Memory.mapBlocks_isSome_iff _ _ _ _).mpr hw)
  exact ⟨m, hm, cryptBuffer_complete dir hi hr hm⟩

/-- Settles O23: the two commands are one loop in two directions, and the rest is what the loop leaves of the memory. -/
theorem bufferCommandsTransformTheRange : Obligations.BufferCommandsTransformTheRange := by
  unfold Obligations.BufferCommandsTransformTheRange
  intro klen nrk s i dir hcmd hi hr hw
  have hexec : exec i s = cryptBuffer dir s := by
    rcases hcmd with ⟨rfl, rfl⟩ | ⟨rfl, rfl⟩
    · rfl
    · rfl
  obtain ⟨m, hm, hcomplete⟩ := cryptBuffer_written dir hi hr hw
  obtain ⟨hin, hout, -⟩ := Memory.mapBlocks_some hm
  refine ⟨_, hexec.trans hcomplete, fun j x h1 h2 hx => ?_, hout, rfl⟩
  obtain ⟨y, hy, hny⟩ := hin j h1 h2
  obtain rfl : x = y := Option.some.inj (hx.symm.trans hy)
  exact hny

end Sys2Proof.Machine
end

section
/-! PROOFS. The machine's invariant, part by part: what the writes of memory, the ends of a command, the effects of the
commands and the accesses of the host keep of it, and the obligation that a whole step keeps it. -/

namespace Sys2Proof.Machine

/-! ### The block buffer -/

/-- The invariant's part on BUF: canonical, inside the window, and its words written whole (R82, R85, R86). -/
structure Memory.Inv (bufBlocks : Nat) (m : Memory) : Prop where
  canonical : m.wf
  inWindow : ∀ c ∈ m, 0x8000 ≤ c.1 ∧ c.1 < 0x8000 + 8 * bufBlocks
  wholeWords : ∀ a k, a % 4 = 0 → k < 4 → ((m.read (a + k)).isSome = (m.read a).isSome)

theorem DesCore.Inv.buf_inv {n : Nat} {d : DesCore} (h : d.Inv n) : d.buf.Inv n :=
  ⟨h.canonical, h.inWindow, h.wholeWords⟩

/-- A core with another buffer meets the invariant where that buffer does. -/
theorem DesCore.Inv.with_buf {n : Nat} {d : DesCore} {m : Memory} (h : d.Inv n) (hm : m.Inv n) :
    { d with buf := m }.Inv n :=
  { h with canonical := hm.canonical, inWindow := hm.inWindow, wholeWords := hm.wholeWords }

/-- The addresses a word store leaves listed: the old ones and the word's four. -/
theorem Memory.mem_writeWord {m : Memory} {a : Nat} {v : Word} {c : Host.Cell} (h : c ∈ m.writeWord a v) :
    (a ≤ c.1 ∧ c.1 < a + 4) ∨ c ∈ m := by
  rcases mem_write _ _ _ h with h | h
  · omega
  rcases mem_write _ _ _ h with h | h
  · omega
  rcases mem_write _ _ _ h with h | h
  · omega
  rcases mem_write _ _ _ h with h | h
  · omega
  · exact .inr h

/-- A store of an aligned word of BUF keeps the buffer's invariant (R81, R86). -/
theorem Memory.Inv.writeWord {n a : Nat} {m : Memory} (h : m.Inv n) (v : Word) (h4 : a % 4 = 0) (h1 : 0x8000 ≤ a)
    (h2 : a + 4 ≤ 0x8000 + 8 * n) : (m.writeWord a v).Inv n where
  canonical := writeWord_wf m a v h.canonical
  inWindow c hc := by
    rcases mem_writeWord hc with hc | hc
    · omega
    · exact h.inWindow c hc
  wholeWords x k hx hk := by
    by_cases hxa : x = a
    · have hwritten : ∀ k < 4, ((m.writeWord a v).read (a + k)).isSome = true := fun k hk => by
        rw [read_writeWord_byte m a v hk, Option.isSome_some]
      rw [hxa, hwritten k hk]
      exact (hwritten 0 (by decide)).symm
    · rw [read_writeWord_other m v (by omega), read_writeWord_other m v (by omega)]
      exact h.wholeWords x k hx hk

/-- A BufWrite of an existing block keeps the buffer's invariant (R88). -/
theorem Memory.Inv.bufWrite {n j : Nat} {m : Memory} (h : m.Inv n) (hj : j < n) (v : Block) : (m.bufWrite j v).Inv n := by
  have hhi : (m.writeWord (bufHiAt j) (hi64 v)).Inv n := by
    apply h.writeWord <;> rw [bufHiAt_eq] <;> omega
  apply hhi.writeWord <;> rw [bufLoAt_eq] <;> omega

/-- The loop of a buffer command over a range in the buffer keeps the buffer's invariant (R216, R219). -/
theorem Memory.Inv.mapBlocks {f : Block → Block} {n j c : Nat} {m m' : Memory} (h : m.Inv n) (hr : j + c ≤ n)
    (hm : m.mapBlocks f j c = some m') : m'.Inv n := by
  induction c generalizing m j with
  | zero =>
    obtain rfl : m = m' := Option.some.inj hm
    exact h
  | succ c ih =>
    rw [mapBlocks_succ] at hm
    split at hm
    · cases hm
    · exact ih (h.bufWrite (by omega) _) (by omega) hm

/-! ### How a command ends -/

/-- The code and the detail of each error are a row of the table (R241). -/
theorem CmdError.row_mem (e : CmdError) :
    (e.code, e.info) ∈ [((0 : BitVec 4), (0 : BitVec 4)), (1, 1), (1, 2), (1, 3), (1, 4), (1, 5), (2, 0)] := by
  cases e <;> decide

/-- A successful completion keeps the invariant (R72). -/
theorem DesCore.Inv.finish {n : Nat} {d : DesCore} (h : d.Inv n) : d.finish.Inv n :=
  { h with errorRow := List.mem_cons_self, inFlight := fun hb => absurd hb (by simp) }

/-- A completion with an error keeps the invariant (R242). -/
theorem DesCore.Inv.failWith {n : Nat} {d : DesCore} (h : d.Inv n) (e : CmdError) : (d.failWith e).Inv n :=
  { h with errorRow := e.row_mem, inFlight := fun hb => absurd hb (by simp) }

/-! ### The effects of the commands -/

/-- Every byte of a normalised key has odd parity (R164). -/
theorem Latch.normalisedKey_oddParity (l : Latch) {klen : Nat} (hk : klen = 7 ∨ klen = 8) :
    ∀ i < 8, oddParity (blockByte (l.normalisedKey klen) i) := by
  intro i hi
  rcases hk with rfl | rfl
  · rw [Latch.normalisedKey, blockByte_keyNorm_seven _ hi]
    exact par_oddParity _
  · rw [Latch.normalisedKey, blockByte_keyNorm_eight _ hi]
    exact par_oddParity _

/-- The count that NRK asks for is at most the sixteen entries of a bank (R112, R193). -/
theorem roundCount_le {nrk : Nat} (h : nrk ≤ 16) : roundCount nrk ≤ 16 := by
  unfold roundCount
  split
  · exact Nat.le_refl 16
  · exact h

/-- The effect of a command keeps the invariant: BUF changes by the loop over a range in it, a new active key is normalised,
the expansion bank is 0 from its count on, and ZEROIZE leaves no key. -/
theorem Effect.inv {s : State} {i : Instr} {d : DesCore} (heff : Effect s i d) (h : s.des.Inv s.cfg.bufBlocks) :
    d.Inv s.cfg.bufBlocks := by
  cases heff with
  | keyInit klen nrk hk =>
    exact { h with
      initialised := fun _ => ⟨rfl, s.des.latch.normalisedKey_oddParity hk⟩
      noKey := fun hi => absurd hi (by simp) }
  | keyExpand klen nrk _ hn =>
    refine { h with xrknRange := ?_, xrkRest := fun i hi => ?_ }
    · rw [roundCount_toNat hn]
      exact roundCount_le hn
    · rw [roundCount_toNat hn] at hi
      exact (firstKeys_getElem _ _ i.val i.isLt).trans (if_neg (Nat.not_lt.mpr hi))
  | encBlock | decBlock | roundF => exact { h with }
  | encBuf klen nrk m _ hr hm => exact h.with_buf (h.buf_inv.mapBlocks hr hm)
  | decBuf klen nrk m _ hr hm => exact h.with_buf (h.buf_inv.mapBlocks hr hm)
  | zeroize klen nrk =>
    exact { h with
      xrknRange := Nat.zero_le _
      xrkRest := fun i _ => zeroBank_get i
      initialised := fun hi => absurd hi (by simp)
      noKey := fun _ => ⟨rfl, rfl⟩ }

/-- A machine out of reset meets the invariant where its core does (R270). -/
theorem State.inv_of_core {s : State} {d : DesCore} (hr : s.rst = false) (hd : d.Inv s.cfg.bufBlocks) :
    { s with des := d }.Inv :=
  ⟨hd, fun h => absurd (hr.symm.trans h) (by decide)⟩

/-- The engine's turn keeps the machine's invariant: it ends a command only out of reset (R72, R270). -/
theorem engineTurn_keeps_inv {s t : State} (h : s.Inv) (hx : engineTurn s = .next t) : t.Inv := by
  rcases engineTurn_cases s with ⟨-, q⟩ | ⟨i, hr, -, -, q⟩ | ⟨why, hr, -, -, q⟩ <;> rw [q] at hx
  · obtain rfl := Host.Outcome.next.inj hx
    exact h
  · rcases exec_next hx with ⟨e, rfl⟩ | ⟨d, heff, rfl⟩
    · exact State.inv_of_core hr (h.core.failWith e)
    · exact State.inv_of_core hr (heff.inv h.core).finish
  · obtain rfl := Host.Outcome.next.inj hx
    exact State.inv_of_core hr (h.core.failWith _)

/-! ### The host's accesses -/

/-- An offset reaches only registers of the build (R83, R89). -/
theorem exists_of_ofOffset {n : Nat} {off : Offset} {r : Reg} (h : Reg.ofOffset n off = some r) : r.Exists n := by
  have hgood := not_badOffset_of_ofOffset h
  rw [Reg.exists_iff_offset_lt, offset_of_ofOffset h]
  unfold BadOffset at hgood
  omega

/-- A host write to STATUS keeps the invariant: it can only clear bits (R38). -/
theorem DesCore.Inv.writeStatus {n : Nat} {d : DesCore} (h : d.Inv n) (v : Word) : (d.writeStatus v).Inv n :=
  { h with
    inFlight := fun hb => by
      obtain ⟨hdone, herr⟩ := h.inFlight hb
      exact ⟨by rw [DesCore.writeStatus_done, hdone, Bool.false_and], herr⟩ }

/-- A command write keeps the invariant, accepted or dropped: acceptance clears DONE and the error (R71, R113). -/
theorem DesCore.Inv.presentCommand {n : Nat} {d : DesCore} (h : d.Inv n) (w : Word) : (d.presentCommand w).Inv n := by
  unfold DesCore.presentCommand
  split
  · exact { h with }
  · exact { h with errorRow := List.mem_cons_self, inFlight := fun _ => ⟨rfl, rfl⟩ }

/-- A host write of a register of the build keeps the invariant. -/
theorem DesCore.Inv.writeReg {n : Nat} {d : DesCore} (h : d.Inv n) {r : Reg} (hr : r.Exists n) (v : Word) :
    (d.writeReg r v).Inv n := by
  cases r with
  | status => exact h.writeStatus v
  | cmd => exact h.presentCommand v
  | bufHi j =>
    simp only [Reg.Exists] at hr
    refine h.with_buf (h.buf_inv.writeWord v ?_ ?_ ?_) <;> rw [Memory.bufHiAt_eq] <;> omega
  | bufLo j =>
    simp only [Reg.Exists] at hr
    refine h.with_buf (h.buf_inv.writeWord v ?_ ?_ ?_) <;> rw [Memory.bufLoAt_eq] <;> omega
  | _ => exact { h with }

/-- The host's turn keeps the machine's invariant; in reset it leaves the core alone (R270). -/
theorem hostTurn_keeps_inv {s t : State} (h : s.Inv) (hx : hostTurn s = .next t) : t.Inv := by
  obtain ⟨hd, hcfg, hrst, -⟩ := hostTurn_next hx
  refine ⟨?_, fun hr => ?_⟩
  · rw [hcfg]
    rcases hd with hd | ⟨-, hd⟩ | ⟨off, v, r, -, ho, -, hd⟩ <;> rw [hd]
    · exact h.core
    · exact { h.core with }
    · exact h.core.writeReg (exists_of_ofOffset ho) v
  · rw [hrst] at hr
    rcases hd with hd | ⟨hr', -⟩ | ⟨_, _, _, hr', -⟩
    · exact hd.trans (h.held hr)
    · exact absurd (hr.symm.trans hr') (by decide)
    · exact absurd (hr.symm.trans hr') (by decide)

/-! ### A whole step -/

/-- Settles O56: one turn of the host, of the engine or of the reset line keeps each part of the invariant. -/
theorem stepKeepsTheInvariant : Obligations.StepKeepsTheInvariant := by
  unfold Obligations.StepKeepsTheInvariant
  intro s t h hstep
  have hpop : s.popTurn.Inv := ⟨h.core, h.held⟩
  rcases step_next hstep with ⟨-, hx⟩ | ⟨-, hx⟩ | ⟨-, rfl⟩ | ⟨-, rfl⟩
  · exact hostTurn_keeps_inv hpop hx
  · exact engineTurn_keeps_inv hpop hx
  · exact ⟨DesCore.reset_inv _, fun _ => rfl⟩
  · exact ⟨h.core, fun hr => absurd hr (by simp)⟩

end Sys2Proof.Machine
end

section
/-! PROOFS. The ends of a command, the order of its checks, and the obligations on errors, on the interrupt line and on the
idle core (`spec/60_exceptions.md`). -/

namespace Sys2Proof.Machine

/-! ### Errors -/

/-- Settles O27: a command that answers next has raised an error or completed with the status of a success. -/
theorem errorsArePrecise : Obligations.ErrorsArePrecise := by
  unfold Obligations.ErrorsArePrecise
  refine ⟨raise_eq, fun i s t hx herr => ?_⟩
  rcases exec_next hx with ⟨e, rfl⟩ | ⟨d, -, rfl⟩
  · rfl
  · exact absurd (DesCore.finish_errCode d) herr

/-- Settles O29: of the three ways a command ends two answer next, and the third is the fault of a buffer command. -/
theorem everyCommandCompletes : Obligations.EveryCommandCompletes := by
  unfold Obligations.EveryCommandCompletes
  intro i s
  rcases exec_cases i s with ⟨e, q⟩ | hfault | ⟨d, -, q⟩
  · exact .inl ⟨_, q, rfl, rfl⟩
  · exact .inr hfault
  · exact .inl ⟨_, q, rfl, rfl⟩

/-! ### The order of the checks (R243) -/

/-- A word with a defined OP and no reserved bit decodes to the command of its own fields (R110, R114). -/
theorem exists_decode_fields {w : Word} (h1 : 1 ≤ (opField w).toNat) (h8 : (opField w).toNat ≤ 8)
    (hclear : reservedHigh w = 0 ∧ reservedLow w = 0) :
    ∃ i, decode w = .command i ∧ i.opcode = (opField w).toNat ∧ i.klen = (klenField w).toNat ∧
      i.nrk = (nrkField w).toNat := by
  obtain ⟨i, hi, -⟩ := (exists_decode_opcode_iff w _).mpr ⟨h1, h8, rfl, hclear⟩
  exact ⟨i, hi, commandOf_eq_some ((decode_command_iff w i).mp hi).1⟩

/-- The command in flight ends without an error: it completes, or stops at a block not written since reset (R72, R75). -/
def State.EndsWithoutError (s : State) (r : Result) : Prop := r = .fault .unwrittenBuffer ∨ ∃ d, r = s.complete d

/-- ENC_BLOCK and DEC_BLOCK report a missing key and complete otherwise (R210, R212). -/
theorem cryptBlock_reports_first_failure (dir : Direction) (s : State) :
    if s.des.init = false then cryptBlock dir s = s.raise .notInitialized
    else s.EndsWithoutError (cryptBlock dir s) := by
  split
  · next hi => exact cryptBlock_noInit dir s hi
  · next hi => exact .inr ⟨_, cryptBlock_init dir s (Bool.not_eq_false _ ▸ hi)⟩

/-- ENC_BUF and DEC_BUF report a missing key before a range outside the buffer (R216, R219). -/
theorem cryptBuffer_reports_first_failure (dir : Direction) (s : State) :
    if s.des.init = false then cryptBuffer dir s = s.raise .notInitialized
    else if s.cfg.bufBlocks < s.des.latch.base.toNat + s.des.latch.cnt.toNat then
      cryptBuffer dir s = s.raise .bufferRange
    else s.EndsWithoutError (cryptBuffer dir s) := by
  rcases cryptBuffer_cases dir s with ⟨hi, q⟩ | ⟨hi, hr, q⟩ | ⟨hi, hr, -, q⟩ | ⟨m, hi, hr, -, q⟩
  · rwa [if_pos hi]
  · rwa [if_neg (by simp [hi]), if_pos hr]
  · rw [if_neg (by simp [hi]), if_neg (Nat.not_lt.mpr hr)]
    exact .inl q
  · rw [if_neg (by simp [hi]), if_neg (Nat.not_lt.mpr hr)]
    exact .inr ⟨_, q⟩

/-- KEY_INIT reports an unsupported key length and completes otherwise (R190). -/
theorem execKeyInit_reports_first_failure (klen : Nat) (s : State) :
    if ¬(klen = 7 ∨ klen = 8) then execKeyInit klen s = s.raise .keySize
    else s.EndsWithoutError (execKeyInit klen s) := by
  rcases execKeyInit_cases klen s with ⟨hk, q⟩ | ⟨hk, q⟩
  · rw [if_neg (Decidable.not_not.mpr hk)]
    exact .inr ⟨_, q⟩
  · rwa [if_pos hk]

/-- KEY_EXPAND reports an unsupported key length before a count above 16 (R193). -/
theorem execKeyExpand_reports_first_failure (klen nrk : Nat) (s : State) :
    if ¬(klen = 7 ∨ klen = 8) then execKeyExpand klen nrk s = s.raise .keySize
    else if 16 < nrk then execKeyExpand klen nrk s = s.raise .roundCount
    else s.EndsWithoutError (execKeyExpand klen nrk s) := by
  rcases execKeyExpand_cases klen nrk s with ⟨hk, hn, q⟩ | ⟨hk, hn, q⟩ | ⟨hk, q⟩
  · rw [if_neg (Decidable.not_not.mpr hk), if_neg (Nat.not_lt.mpr hn)]
    exact .inr ⟨_, q⟩
  · rwa [if_neg (Decidable.not_not.mpr hk), if_pos hn]
  · rwa [if_pos hk]

/-- A command reports the first of the checks 3 to 6 of R243 that it fails; one that passes them all completes without an
error or stops at an unwritten block. -/
theorem exec_reports_first_failure (i : Instr) (s : State) :
    if (i.opcode = 3 ∨ i.opcode = 4 ∨ i.opcode = 6 ∨ i.opcode = 7) ∧ s.des.init = false then
      exec i s = s.raise .notInitialized
    else if (i.opcode = 1 ∨ i.opcode = 2) ∧ ¬(i.klen = 7 ∨ i.klen = 8) then exec i s = s.raise .keySize
    else if i.opcode = 2 ∧ 16 < i.nrk then exec i s = s.raise .roundCount
    else if (i.opcode = 6 ∨ i.opcode = 7) ∧ s.cfg.bufBlocks < s.des.latch.base.toNat + s.des.latch.cnt.toNat then
      exec i s = s.raise .bufferRange
    else s.EndsWithoutError (exec i s) := by
  cases i with
  | keyInit klen nrk => simpa [Instr.opcode, Instr.klen, exec] using execKeyInit_reports_first_failure klen s
  | keyExpand klen nrk =>
    simpa [Instr.opcode, Instr.klen, Instr.nrk, exec] using execKeyExpand_reports_first_failure klen nrk s
  | encBlock klen nrk => simpa [Instr.opcode, exec, execEncBlock] using cryptBlock_reports_first_failure .enc s
  | decBlock klen nrk => simpa [Instr.opcode, exec, execDecBlock] using cryptBlock_reports_first_failure .dec s
  | roundF klen nrk => exact .inr ⟨_, rfl⟩
  | encBuf klen nrk => simpa [Instr.opcode, exec, execEncBuf] using cryptBuffer_reports_first_failure .enc s
  | decBuf klen nrk => simpa [Instr.opcode, exec, execDecBuf] using cryptBuffer_reports_first_failure .dec s
  | zeroize klen nrk => exact .inr ⟨_, rfl⟩

/-- Settles O28: the decoder makes the checks 1 and 2, and the decoded command the others. -/
theorem firstFailingCheckIsReported : Obligations.FirstFailingCheckIsReported := by
  unfold Obligations.FirstFailingCheckIsReported
  intro s op klen nrk hr hb hop hklen hnrk fails
  rw [← opField_toNat] at hop
  rw [← klenField_toNat] at hklen
  rw [← nrkField_toNat] at hnrk
  subst hop hklen hnrk
  split
  · next hcode => exact engineTurn_illegal hr hb (decode_reservedOp hcode)
  next hcode =>
  split
  · next hset =>
    exact engineTurn_illegal hr hb (decode_reservedBits (by omega) (by omega) (mt (reserved_clear_iff _).mpr hset))
  next hclear =>
  obtain ⟨i, hi, hop, hklen, hnrk⟩ := exists_decode_fields (by omega) (by omega)
    ((reserved_clear_iff _).mp (Decidable.not_not.mp hclear))
  have hx : engineTurn s = exec i s := engineTurn_command hr hb hi
  have hfirst := exec_reports_first_failure i s
  rw [← hx, hop, hklen, hnrk] at hfirst
  split
  · next hkey => exact (if_pos hkey).mp hfirst
  next hkey =>
  rw [if_neg hkey] at hfirst
  split
  · next hsize => exact (if_pos hsize).mp hfirst
  next hsize =>
  rw [if_neg hsize] at hfirst
  split
  · next hcount => exact (if_pos hcount).mp hfirst
  next hcount =>
  rw [if_neg hcount] at hfirst
  split
  · next hrange => exact (if_pos hrange).mp hfirst
  next hrange =>
  rw [if_neg hrange] at hfirst
  exact ⟨⟨i, hi, hop, hklen, hnrk, hx⟩, hfirst.imp_right fun ⟨d, q⟩ => ⟨_, q, rfl, rfl⟩⟩

/-! ### The interrupt line (R250) -/

/-- The effect of a command leaves CTRL.IE alone. -/
theorem Effect.ctrlIe_eq {i : Instr} {s : State} {d : DesCore} (h : Effect s i d) : d.ctrlIe = s.des.ctrlIe := by
  cases h <;> rfl

/-- A completion, with an error or without, leaves irq at CTRL.IE: DONE is set (R242, R250, R253). -/
theorem irq_of_engineTurn {s t : State} (hr : s.rst = false) (hb : s.des.busy = true) (h : engineTurn s = .next t) :
    t.des.irq = s.des.ctrlIe := by
  rcases engineTurn_cases s with ⟨hidle, -⟩ | ⟨i, -, -, -, q⟩ | ⟨why, -, -, -, q⟩
  · simp [hr, hb] at hidle
  · rcases exec_next (q.symm.trans h) with ⟨e, rfl⟩ | ⟨d, heff, rfl⟩
    · exact Bool.and_true _
    · exact (Bool.and_true _).trans heff.ctrlIe_eq
  · obtain rfl := Host.Outcome.next.inj (q.symm.trans h)
    exact Bool.and_true _

/-- Settles O51: irq reads CTRL.IE and DONE, so it follows what a completion and the three writes do to those two. -/
theorem irqFollowsDoneAndEnable : Obligations.IrqFollowsDoneAndEnable := by
  unfold Obligations.IrqFollowsDoneAndEnable
  intro s t v hr
  refine ⟨rfl, irq_of_engineTurn hr, fun hb h => ?_, fun hv h => ?_, fun h => ?_⟩
  · obtain rfl := Host.Outcome.next.inj ((hostWrite_mapped (r := .cmd) v hr rfl rfl).symm.trans h)
    simp [DesCore.writeReg, DesCore.presentCommand, hb, DesCore.irq]
  · obtain rfl := Host.Outcome.next.inj ((hostWrite_mapped (r := .status) v hr rfl rfl).symm.trans h)
    simp [DesCore.writeReg, DesCore.irq, hv]
  · obtain rfl := Host.Outcome.next.inj ((hostWrite_mapped (r := .ctrl) v hr rfl rfl).symm.trans h)
    rfl

/-! ### The idle core (R260) -/

/-- Settles O33: an empty script leaves the host nothing to do, and BUSY = 0 the engine. -/
theorem idleStepKeepsState : Obligations.IdleStepKeepsState := by
  unfold Obligations.IdleStepKeepsState
  intro s hm hb hs hturn
  rcases hturn with ht | ht
  · exact (step_host hm ht).trans (hostTurn_nil hs)
  · exact (step_engine hm ht).trans (engineTurn_idle hb)

end Sys2Proof.Machine
end

section
/-! PROOFS. The BUSY window in terms of the command in flight, the port's rules inside it, runs of two machines that differ
in the latch alone, and the obligations on reset and hazards (`spec/70_reset_and_hazards.md`). -/

namespace Sys2Proof

/-! ### The operation code of the word in flight -/

/-- A word that is a code under the mask of bits [7:0] has that code as its OP (R110). -/
theorem opField_toNat_of_mask {w : Word} {op : Nat} (h8 : op ≤ 8) (h : w &&& 0xFF#32 = BitVec.ofNat 32 op) :
    (opField w).toNat = op := by
  rw [← mask_op_toNat, h, BitVec.toNat_ofNat, Nat.mod_eq_of_lt (by omega)]

/-- The OP of a word that decodes to a command is the command's (R111, R114). -/
theorem opField_toNat_of_command {w : Word} {i : Instr} (h : decode w = .command i) : (opField w).toNat = i.opcode :=
  (commandOf_eq_some ((decode_command_iff w i).mp h).1).1.symm

/-- A word is rejected for its code only where OP is 0 or above 8 (R115). -/
theorem opField_toNat_of_reservedOp {w : Word} (h : decode w = .illegal .reservedOp) :
    (opField w).toNat < 1 ∨ 8 < (opField w).toNat := by
  refine Decidable.byContradiction fun hdefined => ?_
  by_cases hclear : reservedHigh w = 0 ∧ reservedLow w = 0
  · obtain ⟨i, hi, -⟩ := (exists_decode_opcode_iff w _).mpr ⟨by omega, by omega, rfl, hclear⟩
    cases h.symm.trans hi
  · cases h.symm.trans (decode_reservedBits (by omega) (by omega) hclear)

end Sys2Proof

namespace Sys2Proof.Machine

/-! ### The registers a word in flight may write (R281) -/

/-- The table of R281 by register is the table by command: a register may be written exactly where the row of the command
with the latched OP lists it, a block of BUF where it is in the latched range too. -/
theorem DesCore.mayWrite_iff {d : DesCore} {i : Instr} (hop : (opField d.latch.cmd).toNat = i.opcode) (r : Reg) :
    d.mayWrite r = true ↔ MayWrite d.latch r i := by
  unfold DesCore.mayWrite
  rw [hop]
  cases r with
  | bufHi j | bufLo j => cases i <;> simp [Instr.opcode, MayWrite, Latch.inRange]
  | _ => cases i <;> simp [Instr.opcode, MayWrite]

/-- No row of R281 is that of a reserved code. -/
theorem DesCore.mayWrite_reservedOp {d : DesCore}
    (hop : (opField d.latch.cmd).toNat < 1 ∨ 8 < (opField d.latch.cmd).toNat) (r : Reg) : d.mayWrite r = false := by
  have hother : ∀ n, 1 ≤ n → n ≤ 8 → ((opField d.latch.cmd).toNat == n) = false := fun n h1 h8 => by
    rw [beq_eq_false_iff_ne]
    omega
  cases r <;> simp [DesCore.mayWrite, hother]

/-! ### The port in the BUSY window -/

/-- A register in the BUSY window reads as the next free value, and the read moves the count of draws alone (R281). -/
theorem hostRead_free {s : State} {off : Offset} {r : Reg} {v : Word} (hr : s.rst = false)
    (ho : Reg.ofOffset s.cfg.bufBlocks off = some r) (hv : s.des.readReg s.cfg.bufBlocks r = some v)
    (hu : s.des.unspecified r = true) :
    hostRead off s = .value (Config.freeWord s.draws) { s with draws := s.draws + 1 } := by
  simp [hostRead, hr, ho, hv, hu]

/-- A write that is a hazard stops the program (R282). -/
theorem hostWrite_hazard {s : State} {off : Offset} {r : Reg} (v : Word) (hr : s.rst = false)
    (ho : Reg.ofOffset s.cfg.bufBlocks off = some r) (hz : s.des.writeHazard r = true) :
    hostWrite off v s = .fault .bufferWriteHazard := by
  simp [hostWrite, hr, ho, hz]

/-- With a word in flight whose OP is that of a command, the read of a register is free where the command's row of R281
lists the register, and exact where it does not. -/
theorem hostRead_inFlight {s : State} {off : Offset} {r : Reg} {v : Word} {i : Instr} (hr : s.rst = false)
    (ho : Reg.ofOffset s.cfg.bufBlocks off = some r) (hv : s.des.readReg s.cfg.bufBlocks r = some v)
    (hb : s.des.busy = true) (hop : (opField s.des.latch.cmd).toNat = i.opcode) :
    (MayWrite s.des.latch r i →
      hostRead off s = .value (Config.freeWord s.draws) { s with draws := s.draws + 1 }) ∧
    (¬ MayWrite s.des.latch r i → hostRead off s = .value v s) := by
  have hu : s.des.unspecified r = s.des.mayWrite r := by rw [DesCore.unspecified, hb, Bool.true_and]
  rw [← DesCore.mayWrite_iff hop, ← hu, Bool.not_eq_true]
  exact ⟨hostRead_free hr ho hv, hostRead_exact hr ho hv⟩

/-- A write of a word of block `j` is a hazard where a word with the OP of a buffer command is in flight and block `j` is in
its latched range (R282). -/
theorem DesCore.writeHazard_buf_true {d : DesCore} {r : Reg} {j : Nat} (hr : r = .bufHi j ∨ r = .bufLo j)
    (hb : d.busy = true) (hop : (opField d.latch.cmd).toNat = 6 ∨ (opField d.latch.cmd).toNat = 7)
    (hin : d.latch.base.toNat ≤ j ∧ j < d.latch.base.toNat + d.latch.cnt.toNat) : d.writeHazard r = true := by
  rcases hr with rfl | rfl <;>
    simp [DesCore.writeHazard, DesCore.unspecified, DesCore.mayWrite, Latch.inRange, hb, hop, hin]

/-- The offsets of block `j` of BUF reach its two halves, and a write of either stores the word at that offset (R85, R86). -/
theorem ofOffset_block {n j : Nat} {off : Offset} (hj : j < n)
    (hoff : off.toNat = 0x8000 + 8 * j ∨ off.toNat = 0x8004 + 8 * j) :
    ∃ r, (r = .bufHi j ∨ r = .bufLo j) ∧ Reg.ofOffset n off = some r ∧
      ∀ (d : DesCore) v, d.writeReg r v = { d with buf := d.buf.writeWord off.toNat v } := by
  rcases hoff with h | h
  · exact ⟨.bufHi j, .inl rfl, ofOffset_bufHi hj h, fun d v => by rw [h]; rfl⟩
  · exact ⟨.bufLo j, .inr rfl, ofOffset_bufLo hj h, fun d v => by rw [h]; rfl⟩

/-- Settles O48: the read is free where a word is in flight and the row of its OP lists the register, which no row does for
a reserved OP, and for STATUS, ERRCODE, CMD, CTRL, ID and CAP neither does any. -/
theorem busyWindowReadsAreFree : Obligations.BusyWindowReadsAreFree := by
  unfold Obligations.BusyWindowReadsAreFree
  refine ⟨fun s r v hr hn hexists hv => ?_, fun s r hr hmem => ?_⟩
  · have ho : Reg.ofOffset s.cfg.bufBlocks r.portOffset = some r := ofOffset_portOffset hn hexists
    refine ⟨fun hb => ?_, fun i hb hdec => ?_, fun hb hdec => ?_, fun i hb _ hmask => ?_⟩
    · exact hostRead_exact hr ho hv (DesCore.unspecified_idle hb r)
    · exact hostRead_inFlight hr ho hv hb (opField_toNat_of_command hdec)
    · refine hostRead_exact hr ho hv ?_
      rw [DesCore.unspecified, DesCore.mayWrite_reservedOp (opField_toNat_of_reservedOp hdec), Bool.and_false]
    · exact hostRead_inFlight hr ho hv hb (opField_toNat_of_mask (opcode_range i).2 hmask)
  · cases r with
    | status | errcode | cmd | ctrl | id | cap0 | cap1 | cap2 =>
      exact ⟨_, rfl, hostRead_exact hr rfl rfl (Bool.and_false _)⟩
    | _ => simp at hmem

/-- Settles O49: the offset reaches a half of block `j`, whose write is a hazard exactly in the latched range. -/
theorem writeIntoTheRangeInFlightFaults : Obligations.WriteIntoTheRangeInFlightFaults := by
  unfold Obligations.WriteIntoTheRangeInFlightFaults
  intro s off v j hr hb hcmd hj hoff
  obtain ⟨r, hreg, ho, hstore⟩ := ofOffset_block hj hoff
  have hop : (opField s.des.latch.cmd).toNat = 6 ∨ (opField s.des.latch.cmd).toNat = 7 :=
    hcmd.imp (opField_toNat_of_mask (by decide)) (opField_toNat_of_mask (by decide))
  refine ⟨fun hin => ?_, fun hout => ?_⟩
  · exact hostWrite_hazard v hr ho (DesCore.writeHazard_buf_true hreg hb hop hin)
  · rw [hostWrite_mapped v hr ho (DesCore.writeHazard_buf_false hreg (.inr (.inr hout))), hstore]

/-! ### The reset line (R270) -/

/-- The step that asserts `rst`. -/
theorem step_rstAssert {s : State} (hm : s.cfg.masters ≤ 1) (ht : s.turn = .rstAssert) :
    step s = assertReset s.popTurn := by
  simp [step, ht, Nat.not_lt.mpr hm]

/-- The step that releases `rst`. -/
theorem step_rstRelease {s : State} (hm : s.cfg.masters ≤ 1) (ht : s.turn = .rstRelease) :
    step s = releaseReset s.popTurn := by
  simp [step, ht, Nat.not_lt.mpr hm]

/-- The engine does nothing while `rst` is asserted. -/
theorem engineTurn_inReset {s : State} (hr : s.rst = true) : engineTurn s = .next s := by
  simp [engineTurn, hr]

/-- Settles O54: a turn of the host with no operation left, of the engine with nothing in flight, and the release of `rst`
leave the core alone, and those are all the turns but the ones named. -/
theorem assertedResetHoldsTheCore : Obligations.AssertedResetHoldsTheCore := by
  unfold Obligations.AssertedResetHoldsTheCore
  refine ⟨fun s hm => ⟨step_rstAssert hm, step_rstRelease hm⟩,
    fun s off v hr => ⟨hostRead_inReset off hr, hostWrite_inReset off v hr, engineTurn_inReset hr⟩,
    fun s t hstep hne => ?_⟩
  rcases step_next hstep with ⟨hturn, hx⟩ | ⟨hturn, hx⟩ | ⟨hturn, -⟩ | ⟨-, rfl⟩
  · refine .inr (.inl ⟨hturn, fun hs => hne ?_⟩)
    obtain rfl := Host.Outcome.next.inj ((hostTurn_nil (s := s.popTurn) hs).symm.trans hx)
    rfl
  · refine .inr (.inr ⟨hturn, eq_true_of_ne_false fun hb => hne ?_⟩)
    obtain rfl := Host.Outcome.next.inj ((engineTurn_idle (s := s.popTurn) hb).symm.trans hx)
    rfl
  · exact .inl hturn
  · exact absurd rfl hne

/-! ### Two machines that differ in the latch alone -/

/-- An outcome differs from itself in nothing. -/
theorem SameButLatch.refl (x : Result) : SameButLatch x x := by
  cases x with
  | next t => exact .refl_next t
  | fault f => exact .fault f
  | refused r => exact .refused r

/-- A run does the same with another latch, as long as the latch of a command in flight is kept (R70): by induction on the
steps, as an idle machine's step does the same and leaves the latches equal where it accepts a command. -/
theorem run_withLatch (k : Nat) {s : State} {l : Latch} (h : s.des.busy = true → l = s.des.latch) :
    SameButLatch (Sys2Proof.core.run k s) (Sys2Proof.core.run k (s.withLatch l)) := by
  induction k generalizing s l with
  | zero => exact .next s l h
  | succ k ih =>
    cases hb : s.des.busy with
    | true =>
      obtain rfl := h hb
      exact .refl _
    | false =>
      have hstep := step_withLatch hb l
      generalize hx : step s = x at hstep
      generalize hy : step (s.withLatch l) = y at hstep
      cases hstep with
      | next t l' hl =>
        rw [run_succ_next hx, run_succ_next hy]
        exact ih hl
      | fault f =>
        rw [run_succ_fault hx, run_succ_fault hy]
        exact .fault f
      | refused r =>
        rw [run_succ_refused hx, run_succ_refused hy]
        exact .refused r

/-- The machine with the key material, INIT and the latch of a core. -/
def State.withKeyMaterialOf (s : State) (e : DesCore) : State :=
  { s with des := { s.des with
    key := e.key, knorm := e.knorm, din := e.din, dout := e.dout, hin := e.hin, rkin := e.rkin, hout := e.hout
    rk := e.rk, xrk := e.xrk, xrkn := e.xrkn, init := e.init, latch := e.latch } }

/-- ZEROIZE clears all key material, so the machine it leaves, an idle one, differs in the latch alone where the key material
was another (R196). -/
theorem exec_zeroize_withKeyMaterialOf (s : State) (e : DesCore) (k n : Nat) :
    ∃ t, exec (.zeroize k n) s = .next t ∧ t.des.busy = false ∧
      exec (.zeroize k n) (s.withKeyMaterialOf e) = .next (t.withLatch e.latch) :=
  ⟨_, rfl, rfl, rfl⟩

/-- Settles O60: the ZEROIZE leaves the machines idle and different in the latch alone, which no run from there reads. -/
theorem zeroizeLeavesNothingToRead : Obligations.ZeroizeLeavesNothingToRead := by
  unfold Obligations.ZeroizeLeavesNothingToRead
  intro s s' t t' u k n steps hs ht ht' hrun
  change s' = s.withKeyMaterialOf s'.des at hs
  obtain ⟨w, hw, hidle, hw'⟩ := exec_zeroize_withKeyMaterialOf s s'.des k n
  obtain rfl : w = t := Host.Outcome.next.inj (hw.symm.trans ht)
  obtain rfl : w.withLatch s'.des.latch = t' := Host.Outcome.next.inj (hw'.symm.trans (hs ▸ ht'))
  have hsame := run_withLatch steps (l := s'.des.latch) (fun hb => absurd (hidle.symm.trans hb) (by decide))
  rw [hrun] at hsame
  generalize Sys2Proof.core.run steps (w.withLatch s'.des.latch) = y at hsame ⊢
  cases hsame with
  | next _ l => exact ⟨u.withLatch l, rfl, rfl⟩

end Sys2Proof.Machine
end

section
/-! PROOFS. What a command that completed without an error has done, what an idle core's registers show, and the last
obligations on the key commands (`spec/41_key_commands.md`) and on the register map (`spec/10_state.md` section 2). -/

namespace Sys2Proof.Machine

/-! ### Key commands -/

/-- No error has the code 0, which is that of a success (R39, R241). -/
theorem CmdError.code_ne_zero (e : CmdError) : e.code ≠ 0 := by
  cases e <;> decide

/-- A command that completed with ERRCODE 0 raised no error, so it completed with its effect (R72, R242). -/
theorem exec_success {i : Instr} {s t : State} (h : exec i s = .next t) (hc : t.des.errCode = 0) :
    ∃ d, Effect s i d ∧ t = { s with des := d.finish } := by
  rcases exec_next h with ⟨e, rfl⟩ | hd
  · exact absurd hc e.code_ne_zero
  · exact hd

/-- Settles O19: both banks hold the schedule of one normalised key, and XRKN is the count of the keys kept in XRK. -/
theorem keyExpandAgreesWithKeyInit : Obligations.KeyExpandAgreesWithKeyInit := by
  unfold Obligations.KeyExpandAgreesWithKeyInit
  intro klen nrk m s t u ht htc hu huc i hi
  obtain ⟨_, hinit, rfl⟩ := exec_success ht htc
  obtain ⟨_, hexpand, rfl⟩ := exec_success hu huc
  cases hinit with | keyInit _ _ _ =>
  cases hexpand with | keyExpand _ _ _ hn =>
  have hlt : i.val < roundCount nrk := (roundCount_toNat hn).symm ▸ hi
  exact (firstKeys_getElem _ _ i.val i.isLt).trans (if_pos hlt)

/-- Settles O20: ZEROIZE has no check, and the two banks it writes are clear. -/
theorem zeroizeClearsKeyMaterial : Obligations.ZeroizeClearsKeyMaterial := by
  unfold Obligations.ZeroizeClearsKeyMaterial
  exact fun _ _ s => ⟨_, complete_eq s _, fun i => ⟨zeroBank_get i, zeroBank_get i⟩, rfl⟩

/-! ### The register map -/

/-- CTRL shows its one bit as 0 or 1 (R37). -/
theorem ctrlWord_eq_ite (b : Bool) : 0#31 ++ BitVec.ofBool b = if b then 1#32 else 0#32 := by
  cases b <;> rfl

/-- XRKN shows its five bits with zeros above them (R49). -/
theorem xrknWord_eq_setWidth (x : BitVec 5) : 0#27 ++ x = x.setWidth 32 :=
  (BitVec.setWidth_eq_append (show 5 ≤ 32 by decide)).symm

/-- Settles O39: an idle core reads exactly, and each register's row of `readReg` is the word of the register map. -/
theorem registerReadValues : Obligations.RegisterReadValues := by
  unfold Obligations.RegisterReadValues
  intro s hr hb
  have hread : ∀ {off : Offset} (r : Reg) {v : Word}, Reg.ofOffset s.cfg.bufBlocks off = some r →
      s.des.readReg s.cfg.bufBlocks r = some v → hostRead off s = .value v s :=
    fun r _ ho hv => hostRead_exact hr ho hv (DesCore.unspecified_idle hb r)
  exact ⟨hread .id rfl rfl, hread .cap0 rfl rfl, hread .cap1 rfl rfl, hread .cap2 rfl rfl,
    hread .ctrl rfl (congrArg some (ctrlWord_eq_ite _)), hread .errcode rfl rfl, hread .cmd rfl rfl,
    hread .key0 rfl rfl, hread .key1 rfl rfl, hread .knorm0 rfl rfl, hread .knorm1 rfl rfl,
    hread .din0 rfl rfl, hread .din1 rfl rfl, hread .dout0 rfl rfl, hread .dout1 rfl rfl,
    hread .hin rfl rfl, hread .rkin0 rfl rfl, hread .rkin1 rfl rfl, hread .hout rfl rfl,
    hread .bufBase rfl rfl, hread .bufCnt rfl rfl, hread .xrkn rfl (congrArg some (xrknWord_eq_setWidth _))⟩

end Sys2Proof.Machine
end
